-- ==== Sys2Proof/Word.lean ====
section
/-!
DEFINITION. The two units of the core: the byte and the 32-bit word.
-/
namespace Sys2Proof

/-- A byte of 8 bits (20_memory.md R42). -/
abbrev Byte := BitVec 8

/-- "a 32-bit unsigned integer; the algorithm's native unit of arithmetic" (00_scope.md R10).
The `+` of two words is the wrapping `+32` of R8. -/
abbrev Word := BitVec 32

end Sys2Proof
end

