-- ==== Sys2Proof/Syntax.lean ====
section
/-!
DEFINITION. The instructions of the core: its eleven micro-operations and its one host command
(30_encoding.md R70, R74), one constructor per row of spec/opcode_table.json.
-/
namespace Sys2Proof

/-- One row of the opcode table. A round carries the round index `i` as the trace notation of R73
writes it (`RND2 16`); every other operand is a fixed register. -/
inductive Instr where
  /-- Host command: a write of 1 to CTRL bit 0 (R74, R83). -/
  | start
  /-- Load the initialisation vector (R84). -/
  | init
  /-- Fill the block buffer from the padded message (R100). -/
  | fetch
  /-- Block bytes to message words (R110). -/
  | unpack
  /-- State registers to working registers (R111). -/
  | loadw
  /-- One round of phase 1 (R123). -/
  | rnd1 (i : BitVec 6)
  /-- One round of phase 2 (R124). -/
  | rnd2 (i : BitVec 6)
  /-- One round of phase 3 (R125). -/
  | rnd3 (i : BitVec 6)
  /-- One round of phase 4 (R126). -/
  | rnd4 (i : BitVec 6)
  /-- Feed-forward addition (R128). -/
  | chain
  /-- State registers to digest bytes (R145). -/
  | ser
  /-- Digest bytes to hexadecimal characters (R146). -/
  | hex
  deriving DecidableEq, Repr

end Sys2Proof
end

