-- ==== Sys2Proof/WellFormed.lean ====
section
/-!
DEFINITION. Which terms of `Instr` are instructions of the core: a round's index lies in its phase.
-/
namespace Sys2Proof

/-- "`i` must lie in the phase's range (0 to 15, 16 to 31, 32 to 47, 48 to 63)" (30_encoding.md
R73); every other instruction has no operand to check. -/
def Instr.wellFormed : Instr → Bool
  | .rnd1 i => decide (i.toNat < 16)
  | .rnd2 i => decide (16 ≤ i.toNat ∧ i.toNat < 32)
  | .rnd3 i => decide (32 ≤ i.toNat ∧ i.toNat < 48)
  | .rnd4 i => decide (48 ≤ i.toNat)
  | .start => true
  | .init => true
  | .fetch => true
  | .unpack => true
  | .loadw => true
  | .chain => true
  | .ser => true
  | .hex => true

end Sys2Proof
end

