-- ==== Sys2Proof/Decode.lean ====
section
/-!
DEFINITION. The decoder of the 9-bit micro-operation word and of the CTRL write (30_encoding.md
R70, R71, R74), total and rejecting by name, and the encoder written from the same rules.
-/
namespace Sys2Proof

/-- Why a pattern of bits is no instruction. -/
inductive DecodeError where
  /-- One of the 441 reserved words, `op ≠ 4` and `i ≠ 0` (R71). -/
  | reserved (u : BitVec 9)
  /-- A write of 0 to CTRL bit 0, which "does nothing" and is no command (10_state.md R21). -/
  | ctrlZero
  /-- Two bytes whose bits above bit 8 are not all 0: no 9-bit word (log 15). -/
  | tooWide (hi : Byte)
  /-- Neither the one byte of a CTRL write nor the two bytes of a word (R72: one length). -/
  | wrongLength (bytes : Nat)
  deriving DecidableEq, Repr

/-- `u[8:6] = op` (R70). -/
def opField (u : BitVec 9) : BitVec 3 := u.extractLsb' 6 3

/-- `u[5:0] = i` (R70). -/
def indexField (u : BitVec 9) : BitVec 6 := u.extractLsb' 0 6

/-- The round instruction of index `i`: "RND1 when `i[5:4] = 0`, RND2 when 1, RND3 when 2, RND4 when
3" (R70, R65). -/
def roundInstr (i : BitVec 6) : Instr :=
  let ph : BitVec 2 := i.extractLsb' 4 2
  if ph = 0 then .rnd1 i
  else if ph = 1 then .rnd2 i
  else if ph = 2 then .rnd3 i
  else .rnd4 i

/-- The micro-operation of a 9-bit word, total on all 512 (R70, R71). -/
def decodeUop (u : BitVec 9) : Except DecodeError Instr :=
  if opField u = 4 then .ok (roundInstr (indexField u))
  else if indexField u ≠ 0 then .error (.reserved u)
  else if opField u = 0 then .ok .init
  else if opField u = 1 then .ok .fetch
  else if opField u = 2 then .ok .unpack
  else if opField u = 3 then .ok .loadw
  else if opField u = 5 then .ok .chain
  else if opField u = 6 then .ok .ser
  else .ok .hex

/-- The command of a write to the one-bit register CTRL (R74). -/
def decodeCtrl (v : BitVec 1) : Except DecodeError Instr :=
  if v = 1 then .ok .start else .error .ctrlZero

/-- The instruction of a list of bytes. DESIGN CHOICE (log 15): one byte is a CTRL write, whose
register has one bit, so bits 7 to 1 are not looked at; two bytes are a 9-bit word, low byte first,
whose bits 15 to 9 must be 0. -/
def decode : List Byte → Except DecodeError Instr
  | [b] => decodeCtrl (b.extractLsb' 0 1)
  | [lo, hi] =>
    if hi.extractLsb' 1 7 = 0 then decodeUop (hi.extractLsb' 0 1 ++ lo) else .error (.tooWide hi)
  | bs => .error (.wrongLength bs.length)

/-- The 9-bit word of a micro-operation (R70); START is no micro-operation and has none. -/
def uopWord : Instr → Option (BitVec 9)
  | .start => none
  | .init => some 0x000
  | .fetch => some 0x040
  | .unpack => some 0x080
  | .loadw => some 0x0c0
  | .rnd1 i => some (4#3 ++ i)
  | .rnd2 i => some (4#3 ++ i)
  | .rnd3 i => some (4#3 ++ i)
  | .rnd4 i => some (4#3 ++ i)
  | .chain => some 0x140
  | .ser => some 0x180
  | .hex => some 0x1c0

/-- A 9-bit word as two bytes, low byte first (log 15). -/
def wordBytes (u : BitVec 9) : List Byte :=
  [u.extractLsb' 0 8, (u.extractLsb' 8 1).setWidth 8]

/-- The bytes of an instruction. -/
def encode (i : Instr) : List Byte :=
  match uopWord i with
  | none => [1]
  | some u => wordBytes u

/-- `nbits` bits of `w`, rounded up to whole bytes, the least significant byte first. -/
def tableBytes (nbits w : Nat) : List Byte :=
  (List.range ((nbits + 7) / 8)).map fun k => BitVec.ofNat 8 (w / 2 ^ (8 * k))

/-- The instruction the decoder reads from a row's bits, numbered as spec/opcode_table.json numbers
them: START's row has one byte, every other row two. -/
def decodeTableWord (nbits w : Nat) : Option Instr :=
  (decode (tableBytes nbits w)).toOption

end Sys2Proof
end

