-- ==== Sys2Proof/Config.lean ====
section
/-!
DEFINITION. What an implementation of the core fixes (00_scope.md R7): the documented domain and
the two open parameters. They stand in `State.par`, which no step writes, so that every statement
holds for each of their values (log 5). The core has no undefined result, hence no free value.
-/
namespace Sys2Proof

/-- MAX_MSG_BYTES = 2^61 - 1, the largest message of the documented domain (R7). -/
def maxMsgBytes : Nat := 2 ^ 61 - 1

/-- The open parameter LEN_OVERFLOW: the policy for a length of 2^61 bytes or more (41_padding.md
R102, 90_conflicts.md C1). -/
inductive LenOverflow where
  /-- "the model gives a START with `MSG_LEN >= 2^61` no meaning"; the recommended value. -/
  | refuse
  /-- The length field is the bit length modulo 2^64, the block count that of the full length. -/
  | wrap
  /-- "the field holds `2^64 - 1`". -/
  | saturate
  /-- "the core signals an error, for which it would need an error output that this spec does not
  define". -/
  | reject
  deriving DecidableEq, Repr

/-- The open parameters of one core. -/
structure Params where
  /-- LEN_OVERFLOW. -/
  lenOverflow : LenOverflow
  /-- MSG_SPACE_BYTES, "the largest message a given instance can be handed". -/
  msgSpaceBytes : Nat
  deriving DecidableEq, Repr

/-- MSG_SPACE_BYTES is "any value from 0 to MAX_MSG_BYTES" (R7). -/
abbrev Params.wf (p : Params) : Prop := p.msgSpaceBytes ≤ maxMsgBytes

end Sys2Proof
end

