-- ==== Sys2Proof/Machine/State.lean ====
section
/-!
DEFINITION. The state of one core (10_state.md R11), the moves of its host (R21, 70_reset_and_hazards.md
R175, R178), the reasons a step can stop, and the state after reset (R30).
-/
namespace Sys2Proof.Machine

/-- The life-cycle field `fsm` of the sequencer (R17, 40_digest_command.md R82). -/
inductive Fsm where
  | idle
  | initd
  | proc
  | final
  deriving DecidableEq, Repr

/-- The field `nxt` of the sequencer: the micro-operation to execute next (R17). -/
inductive Nxt where
  | none
  | fetch
  | unpack
  | loadw
  | rnd
  | chain
  | ser
  | hex
  deriving DecidableEq, Repr

/-- Four words: `HA, HB, HC, HD` (R12) or the working registers `A, B, C, D` (R13). -/
structure Quad where
  a : Word
  b : Word
  c : Word
  d : Word
  deriving DecidableEq, Repr

/-- The interface registers a host can name (R21). -/
inductive HostReg where
  | ctrl
  | status
  | msgLen
  | digest
  | hex
  deriving DecidableEq, Repr

/-- What a read of an interface register returns, each with the width R21 gives it. -/
inductive HostValue where
  | ctrl (v : BitVec 1)
  | status (v : BitVec 4)
  | msgLen (v : BitVec 64)
  | digest (v : Vector Byte 16)
  | hex (v : Vector Byte 32)
  deriving DecidableEq, Repr

/-- One move of the host (R21, R175, R178). -/
inductive HostAct where
  /-- The reset input (R175); `withStart`: a START arrives with it and is lost (60_exceptions.md R159). -/
  | reset (withStart : Bool)
  /-- Write of MSG_LEN (R19). -/
  | writeMsgLen (n : BitVec 64)
  /-- Place one byte of the message at an address of the MSG space (R178 step 2). -/
  | placeByte (addr : BitVec 61) (b : Byte)
  /-- Write of CTRL: 1 is START, 0 does nothing (R21). -/
  | writeCtrl (v : BitVec 1)
  /-- Read of an interface register. -/
  | read (r : HostReg)
  deriving DecidableEq, Repr

/-- The state of one core, with the message its host has placed and the host's moves to come. -/
structure State where
  /-- `HA, HB, HC, HD`, also `H[0..3]` (R12). -/
  h : Quad
  /-- The working registers `A, B, C, D` (R13). -/
  w : Quad
  /-- The message words `M[0..15]` (R15). -/
  m : Vector Word 16
  /-- The block buffer `BLK[0..63]` (R16). -/
  block : Vector Byte 64
  /-- `seq.fsm` (R17). -/
  fsm : Fsm
  /-- `seq.nxt` (R17). -/
  nxt : Nxt
  /-- `seq.blk`, the index of the block in progress (R17). -/
  blk : BitVec 56
  /-- `seq.i`, the round index (R17). -/
  i : BitVec 6
  /-- `MSG_LEN`, the length of the message in bytes (R19). -/
  msgLen : BitVec 64
  /-- `DG[0..15]`, the digest bytes (R22). -/
  dg : Vector Byte 16
  /-- `HX[0..31]`, the hexadecimal characters (R23). -/
  hx : Vector Byte 32
  /-- The MSG space (20_memory.md R40): address and byte, addresses strictly rising. An address that
  is not listed holds no byte the core can be given (log 6). -/
  msg : List Host.Cell
  /-- The model's own field: the host's moves, one entry a step, `none` where it makes none (log 3). -/
  host : List (Option HostAct)
  /-- The open parameters, which no step writes (log 5). -/
  par : Params
  deriving DecidableEq, Repr

/-- The machine stops with a fault. -/
inductive Fault where
  /-- The host reads DIGEST or HEX while `DONE = 0` (60_exceptions.md R157, 10_state.md R21). Raised by
  the host port. Safe: the spec gives the read no value, and the model gives it none (log 8). -/
  | readBeforeDone (r : HostReg)
  deriving DecidableEq, Repr

/-- Why a step has no meaning. -/
inductive Refusal where
  /-- An instruction the model gives no meaning yet. Raised by `exec`'s arms; there is none. Safe. -/
  | notModelled (mnemonic : String)
  /-- A micro-operation whose precondition in 10_state.md R18 does not hold. Raised by the meanings
  when asked out of turn, never by a step. Safe: the sequencer never issues it (log 9). -/
  | notEnabled
  /-- FETCH with `blk ≥ NB`, outside the domain of PADBYTE (41_padding.md R96, R100). Raised by FETCH;
  no state of the invariant meets it. Safe (log 9). -/
  | blockOutOfRange
  /-- FETCH needs a message byte that was not placed: "never a made-up byte" (R157). Raised by FETCH.
  Safe (log 6). -/
  | messageUnreadable
  /-- The core asks for a byte at `addr >= n`, a read that a model "must refuse" (20_memory.md R41).
  Raised by the read of the MSG space; no FETCH asks for one, so it is no step's outcome. Safe. -/
  | addressOutsideMessage
  /-- START while `BUSY = 1`, to which the spec gives no effect (40_digest_command.md R83a). Raised by
  START. Safe (log 7). -/
  | startWhileBusy
  /-- START with `MSG_LEN ≥ 2^61` under the policy `refuse` (41_padding.md R102). Raised by START.
  Safe (log 5). -/
  | lengthOverflow
  /-- START with `MSG_LEN ≥ 2^61` under the policy `reject`, whose error output the spec does not
  define (R102). Raised by START. Safe (log 5). -/
  | lengthRejected
  /-- START with `MSG_LEN` above MSG_SPACE_BYTES, "refused by the launch memory" (92_eei_decisions.md
  D16). Raised by START. Safe (log 5). -/
  | messageTooLong
  /-- MSG_LEN or a message byte written while `BUSY = 1`: "the host has no such move" (R157). Raised by
  the host port. Safe (log 7). -/
  | hostWriteWhileBusy
  /-- The sequencer presents a reserved word (30_encoding.md R71). Raised by the core's step; it never
  happens. Safe. -/
  | reservedWord
  deriving DecidableEq, Repr

/-- After reset: `fsm` and `nxt` as R30 says; every register it calls unspecified holds 0 (DESIGN
CHOICE, unsafe, log 1); no message placed (log 6), no host move pending (log 3), the recommended
parameters (log 5). -/
def State.reset : State where
  h := ⟨0, 0, 0, 0⟩
  w := ⟨0, 0, 0, 0⟩
  m := Vector.replicate 16 0
  block := Vector.replicate 64 0
  fsm := .idle
  nxt := .none
  blk := 0
  i := 0
  msgLen := 0
  dg := Vector.replicate 16 0
  hx := Vector.replicate 32 0
  msg := []
  host := []
  par := { lenOverflow := .refuse, msgSpaceBytes := maxMsgBytes }

end Sys2Proof.Machine
end

