-- ==== Sys2Proof/Machine/Flags.lean ====
section
/-!
DEFINITION. The codes of the sequencer's fields and the status bits computed from them. The core
has no arithmetic flag and no condition code (10_state.md R20).
-/
namespace Sys2Proof.Machine

/-- The code of `fsm` (10_state.md R17). -/
def Fsm.code : Fsm → BitVec 2
  | .idle => 0
  | .initd => 1
  | .proc => 2
  | .final => 3

/-- The code of `nxt`, equal to the `op` field of 30_encoding.md R70 (10_state.md R17). -/
def Nxt.code : Nxt → BitVec 3
  | .none => 0
  | .fetch => 1
  | .unpack => 2
  | .loadw => 3
  | .rnd => 4
  | .chain => 5
  | .ser => 6
  | .hex => 7

/-- The value of `nxt` with a given code. -/
def Nxt.ofCode (v : BitVec 3) : Nxt :=
  if v = 0 then .none
  else if v = 1 then .fetch
  else if v = 2 then .unpack
  else if v = 3 then .loadw
  else if v = 4 then .rnd
  else if v = 5 then .chain
  else if v = 6 then .ser
  else .hex

/-- "`BUSY = 1` exactly when `fsm` is `INITD` or `PROC`" (R20). -/
def Fsm.isBusy : Fsm → Bool
  | .idle => false
  | .initd => true
  | .proc => true
  | .final => false

/-- "`DONE = 1` exactly when `fsm = FINAL`" (R20). -/
def Fsm.isDone : Fsm → Bool
  | .idle => false
  | .initd => false
  | .proc => false
  | .final => true

/-- BUSY (R20). -/
def State.busy (s : State) : Bool := s.fsm.isBusy

/-- DONE (R20). -/
def State.done (s : State) : Bool := s.fsm.isDone

/-- The register STATUS: bits [1:0] `FSM`, bit 2 `BUSY`, bit 3 `DONE` (R21). -/
def State.status (s : State) : BitVec 4 :=
  BitVec.ofBool s.done ++ BitVec.ofBool s.busy ++ s.fsm.code

end Sys2Proof.Machine
end

