-- ==== Sys2Proof/Machine/Ops.lean ====
section
/-!
DEFINITION. The operations the meanings share: the MSG space, byte order, rotation, and the issue
of a micro-operation by the sequencer. The core raises no exception and has no trap entry or return
(60_exceptions.md R155, R160, R161), so there is no operation for either.
-/
namespace Sys2Proof.Machine

/-- The MSG space as a list of cells (20_memory.md R40). -/
abbrev Memory := List Host.Cell

/-- The canonical form of the MSG space: addresses strictly rising, each of at most 61 bits (R40).
An unlisted address reads as no byte, so no entry can repeat what an unlisted one reads as. -/
abbrev Memory.wf (mem : Memory) : Prop :=
  (mem.map Prod.fst).Pairwise (· < ·) ∧ ∀ c ∈ mem, c.1 < 2 ^ 61

/-- The byte placed at address `a`; `none` where none was (log 6). The core reads through `msgRead`. -/
def memRead : Memory → Nat → Option Byte
  | [], _ => none
  | c :: rest, a => if c.1 = a then some c.2 else memRead rest a

/-- `MemRead(MSG, addr, 1)`, the core's read of the message (R41): a byte below `n` that was placed. At
or above `n` it is refused although a byte may lie there from a longer message; below `n` it is refused
where none was placed (log 6). -/
def msgRead (s : State) (addr : Nat) : Except Refusal Byte :=
  if addr < s.msgLen.toNat then
    match memRead s.msg addr with
    | some b => .ok b
    | none => .error .messageUnreadable
  else .error .addressOutsideMessage

/-- The host places byte `b` at address `a`; the list stays sorted. -/
def memWrite : Memory → Nat → Byte → Memory
  | [], a, b => [(a, b)]
  | c :: rest, a, b =>
    if a < c.1 then (a, b) :: c :: rest
    else if a = c.1 then (a, b) :: rest
    else c :: memWrite rest a b

/-- `LE32(b0, b1, b2, b3)`, byte `b0` least significant (00_scope.md R8). -/
def le32 (b0 b1 b2 b3 : Byte) : Word := b3 ++ b2 ++ b1 ++ b0

/-- `le32_byte(w, k) = w[8k+7:8k]` (00_scope.md R8). -/
def le32Byte (w : Word) (k : Nat) : Byte := w.extractLsb' (8 * k) 8

/-- `le64_byte(v, k) = v[8k+7:8k]` (00_scope.md R8). -/
def le64Byte (v : BitVec 64) (k : Nat) : Byte := v.extractLsb' (8 * k) 8

/-- `rotl32(x, s)` for `0 ≤ s ≤ 31` (00_scope.md R8, 43_compression.md R121f). -/
def rotl32 (x : Word) (s : BitVec 5) : Word := x.rotateLeft s.toNat

/-- `H[0..3]` of four words (10_state.md R12). -/
def Quad.get (q : Quad) (j : Fin 4) : Word :=
  match j with
  | 0 => q.a
  | 1 => q.b
  | 2 => q.c
  | 3 => q.d

/-- Word by word addition modulo 2^32, no carry from one word into the next (43_compression.md
R128). -/
def Quad.add (p q : Quad) : Quad := ⟨p.a + q.a, p.b + q.b, p.c + q.c, p.d + q.d⟩

/-- The sequencer names micro-operation `n` as the next one (10_state.md R18, "allowed when"); `nxt`
is "meaningful when `fsm` is `INITD` or `PROC`" (R17). -/
def State.enabled (s : State) (n : Nxt) : Bool := s.busy && s.nxt == n

/-- A micro-operation that leads to `t`, issued when the sequencer names it and refused otherwise
(log 9). -/
def issue (s : State) (n : Nxt) (t : State) : Host.Outcome State Fault Refusal :=
  if s.enabled n then .next t else .refused .notEnabled

end Sys2Proof.Machine
end

