-- ==== Sys2Proof/Machine/Operands.lean ====
section
/-!
DEFINITION. What a round reads beside the registers: the round index's phase and step, the
word-index schedule, and the constant tables K, S and IV (10_state.md R24 to R26; log 10). The tables
are definitions and no field of `State`, so nothing can write them (R28).
-/
namespace Sys2Proof.Machine

/-- `i[5:4]`, the phase select `ph` (30_encoding.md R65). -/
def phaseOf (i : BitVec 6) : BitVec 2 := i.extractLsb' 4 2

/-- `g(i)` of phase 1, rounds 0 to 15: `i` (30_encoding.md R66). -/
def g1 (i : BitVec 6) : Fin 16 := Fin.ofNat 16 i.toNat

/-- `g(i)` of phase 2, rounds 16 to 31: `(5*i + 1) mod 16` (30_encoding.md R66). -/
def g2 (i : BitVec 6) : Fin 16 := Fin.ofNat 16 (5 * i.toNat + 1)

/-- `g(i)` of phase 3, rounds 32 to 47: `(3*i + 5) mod 16` (30_encoding.md R66). -/
def g3 (i : BitVec 6) : Fin 16 := Fin.ofNat 16 (3 * i.toNat + 5)

/-- `g(i)` of phase 4, rounds 48 to 63: `(7*i) mod 16` (30_encoding.md R66). -/
def g4 (i : BitVec 6) : Fin 16 := Fin.ofNat 16 (7 * i.toNat)

/-- `K[0..15]` (10_state.md R24). -/
def kTable1 : List Word :=
  [0xd76aa478, 0xe8c7b756, 0x242070db, 0xc1bdceee,
   0xf57c0faf, 0x4787c62a, 0xa8304613, 0xfd469501,
   0x698098d8, 0x8b44f7af, 0xffff5bb1, 0x895cd7be,
   0x6b901122, 0xfd987193, 0xa679438e, 0x49b40821]

/-- `K[16..31]` (10_state.md R24). -/
def kTable2 : List Word :=
  [0xf61e2562, 0xc040b340, 0x265e5a51, 0xe9b6c7aa,
   0xd62f105d, 0x02441453, 0xd8a1e681, 0xe7d3fbc8,
   0x21e1cde6, 0xc33707d6, 0xf4d50d87, 0x455a14ed,
   0xa9e3e905, 0xfcefa3f8, 0x676f02d9, 0x8d2a4c8a]

/-- `K[32..47]` (10_state.md R24). -/
def kTable3 : List Word :=
  [0xfffa3942, 0x8771f681, 0x6d9d6122, 0xfde5380c,
   0xa4beea44, 0x4bdecfa9, 0xf6bb4b60, 0xbebfbc70,
   0x289b7ec6, 0xeaa127fa, 0xd4ef3085, 0x04881d05,
   0xd9d4d039, 0xe6db99e5, 0x1fa27cf8, 0xc4ac5665]

/-- `K[48..63]` (10_state.md R24). -/
def kTable4 : List Word :=
  [0xf4292244, 0x432aff97, 0xab9423a7, 0xfc93a039,
   0x655b59c3, 0x8f0ccc92, 0xffeff47d, 0x85845dd1,
   0x6fa87e4f, 0xfe2ce6e0, 0xa3014314, 0x4e0811a1,
   0xf7537e82, 0xbd3af235, 0x2ad7d2bb, 0xeb86d391]

/-- The ROM `K[0..63]`. -/
def kTable : List Word := kTable1 ++ kTable2 ++ kTable3 ++ kTable4

/-- `K[i]`: the table indexed by the round index itself (30_encoding.md R67). -/
def romK (i : BitVec 6) : Word := kTable[i.toNat]'i.isLt

/-- Sixteen shift amounts of one phase: four amounts, four times (10_state.md R25). -/
def shiftGroup (s0 s1 s2 s3 : BitVec 5) : List (BitVec 5) :=
  [s0, s1, s2, s3, s0, s1, s2, s3, s0, s1, s2, s3, s0, s1, s2, s3]

/-- The ROM `S[0..63]` (10_state.md R25). -/
def sTable : List (BitVec 5) :=
  shiftGroup 7 12 17 22 ++ shiftGroup 5 9 14 20 ++ shiftGroup 4 11 16 23 ++ shiftGroup 6 10 15 21

/-- `S[i]`: the table indexed by the round index itself (30_encoding.md R67). -/
def romS (i : BitVec 6) : BitVec 5 := sTable[i.toNat]'i.isLt

/-- `IV[0..3]` (10_state.md R26). -/
def iv : Quad := ⟨0x67452301, 0xefcdab89, 0x98badcfe, 0x10325476⟩

end Sys2Proof.Machine
end

