-- ==== Sys2Proof/Machine/Padding.lean ====
section
/-!
DEFINITION. The padding unit: the block count, PADBYTE and the micro-operation FETCH (30_encoding.md
R61 to R64, 41_padding.md R96, R100).
-/
namespace Sys2Proof.Machine

/-- `NB = (n + 8) div 64 + 1` (30_encoding.md R62). -/
def blockCount (n : Nat) : Nat := (n + 8) / 64 + 1

/-- `NB` of the message whose length is in MSG_LEN. -/
def State.nb (s : State) : Nat := blockCount s.msgLen.toNat

/-- The value of the length field: "`bitlen = (8 * n) mod 2^64`" (30_encoding.md R63). Out of the
documented domain the policy `saturate` gives `2^64 - 1` (41_padding.md R102). -/
def bitLength (p : LenOverflow) (n : Nat) : BitVec 64 :=
  if p = .saturate ∧ 2 ^ 64 ≤ 8 * n then BitVec.allOnes 64 else BitVec.ofNat 64 (8 * n)

/-- PADBYTE(j), the byte of the padded message at offset `j < 64*NB` (41_padding.md R96), its four
cases in the order of the rule; `none` where the read of a message byte is refused (log 6). -/
def padByte (s : State) (j : Nat) : Option Byte :=
  if j < s.msgLen.toNat then (msgRead s j).toOption
  else if j = s.msgLen.toNat then some 0x80
  else if j < 64 * s.nb - 8 then some 0x00
  else some (le64Byte (bitLength s.par.lenOverflow s.msgLen.toNat) (j - (64 * s.nb - 8)))

/-- Block `b` of the padded message, its 64 bytes read at once (30_encoding.md R64); `none` when one
of them cannot be read. -/
def readBlock (s : State) (b : Nat) : Option (Vector Byte 64) :=
  if readable : ∀ k : Fin 64, (padByte s (64 * b + k.val)).isSome then
    some (Vector.ofFn fun k => (padByte s (64 * b + k.val)).get (readable k))
  else none

/-- The state after FETCH has put `v` into BLK (R100). -/
def State.fetched (s : State) (v : Vector Byte 64) : State :=
  { s with block := v, fsm := .proc, nxt := .unpack }

/-- FETCH (R100). The first FETCH of an invocation is the transition `Initialized → Processing`. -/
def execFetch (s : State) : Host.Outcome State Fault Refusal :=
  if s.enabled .fetch then
    if s.nb ≤ s.blk.toNat then .refused .blockOutOfRange
    else
      match readBlock s s.blk.toNat with
      | some v => .next (s.fetched v)
      | none => .refused .messageUnreadable
  else .refused .notEnabled

end Sys2Proof.Machine
end

