-- ==== Sys2Proof/Machine/Compression.lean ====
section
/-!
DEFINITION. The compression datapath: the rounds of the four phases and the feed-forward addition
(43_compression.md R122 to R128).
-/
namespace Sys2Proof.Machine

/-- `mix_1(B, C, D) = (B & C) | (~B & D)` (R123). -/
def mix1 (b c d : Word) : Word := (b &&& c) ||| (~~~b &&& d)

/-- `mix_2(B, C, D) = (D & B) | (~D & C)` (R124). -/
def mix2 (b c d : Word) : Word := (d &&& b) ||| (~~~d &&& c)

/-- `mix_3(B, C, D) = B ^ C ^ D` (R125). -/
def mix3 (b c d : Word) : Word := b ^^^ c ^^^ d

/-- `mix_4(B, C, D) = C ^ (B | ~D)`, `~D` within 32 bits (R126). -/
def mix4 (b c d : Word) : Word := c ^^^ (b ||| ~~~d)

/-- The step common to all phases (R122): from the mixing output `f` and the message word `x`, the
sum `T`, the new `B'`, and the simultaneous rotation of the registers (R127). -/
def roundWith (f x : Word) (i : BitVec 6) (q : Quad) : Quad :=
  ⟨q.d, q.b + rotl32 (f + q.a + romK i + x) (romS i), q.b, q.c⟩

/-- A round of phase 1 (R123). -/
def round1 (i : BitVec 6) (q : Quad) (m : Vector Word 16) : Quad :=
  roundWith (mix1 q.b q.c q.d) m[g1 i] i q

/-- A round of phase 2 (R124). -/
def round2 (i : BitVec 6) (q : Quad) (m : Vector Word 16) : Quad :=
  roundWith (mix2 q.b q.c q.d) m[g2 i] i q

/-- A round of phase 3 (R125). -/
def round3 (i : BitVec 6) (q : Quad) (m : Vector Word 16) : Quad :=
  roundWith (mix3 q.b q.c q.d) m[g3 i] i q

/-- A round of phase 4 (R126). -/
def round4 (i : BitVec 6) (q : Quad) (m : Vector Word 16) : Quad :=
  roundWith (mix4 q.b q.c q.d) m[g4 i] i q

/-- The state after a round has written `q` to the working registers: "if `i < 63`: `seq.i <- i + 1`
else: `seq.nxt <- CHAIN`" (R122). -/
def State.afterRound (s : State) (q : Quad) : State :=
  if s.i = 63 then { s with w := q, nxt := .chain } else { s with w := q, i := s.i + 1 }

/-- The round of index `i` of phase `ph`, issued when the sequencer names that round: "Which of RND1
to RND4 a round is follows from `i[5:4]`" (10_state.md R18). -/
def issueRound (s : State) (ph : BitVec 2) (i : BitVec 6) (q : Quad) :
    Host.Outcome State Fault Refusal :=
  if s.i = i ∧ phaseOf i = ph then issue s .rnd (s.afterRound q) else .refused .notEnabled

/-- RND1 (R123). -/
def execRnd1 (i : BitVec 6) (s : State) : Host.Outcome State Fault Refusal :=
  issueRound s 0 i (round1 i s.w s.m)

/-- RND2 (R124). -/
def execRnd2 (i : BitVec 6) (s : State) : Host.Outcome State Fault Refusal :=
  issueRound s 1 i (round2 i s.w s.m)

/-- RND3 (R125). -/
def execRnd3 (i : BitVec 6) (s : State) : Host.Outcome State Fault Refusal :=
  issueRound s 2 i (round3 i s.w s.m)

/-- RND4 (R126). -/
def execRnd4 (i : BitVec 6) (s : State) : Host.Outcome State Fault Refusal :=
  issueRound s 3 i (round4 i s.w s.m)

/-- CHAIN (R128): "if blk + 1 < NB: seq.nxt <- FETCH  else: seq.nxt <- SER". -/
def execChain (s : State) : Host.Outcome State Fault Refusal :=
  issue s .chain
    { s with
      h := s.h.add s.w
      blk := s.blk + 1
      nxt := if s.blk.toNat + 1 < s.nb then .fetch else .ser }

end Sys2Proof.Machine
end

