-- ==== Sys2Proof/Machine/Finalization.lean ====
section
/-!
DEFINITION. The finalization serializer: SER and HEX (44_finalization.md R145, R146).
-/
namespace Sys2Proof.Machine

/-- `DG[4j + k] = le32_byte(H[j], k)`, the function `ser` (R145, 30_encoding.md R68). -/
def serBytes (q : Quad) : Vector Byte 16 :=
  Vector.ofFn fun n => le32Byte (q.get ⟨n.val / 4, by omega⟩) (n.val % 4)

/-- `hexchar(v)`: the ASCII code of `0` to `9` and `a` to `f` (R146). -/
def hexChar (v : BitVec 4) : Byte :=
  if v.toNat ≤ 9 then 0x30 + v.setWidth 8 else 0x61 + (v.setWidth 8 - 10)

/-- `HX[2m] = hexchar(DG[m][7:4])`, `HX[2m + 1] = hexchar(DG[m][3:0])`, the function `hex` (R146,
30_encoding.md R69). -/
def hexChars (v : Vector Byte 16) : Vector Byte 32 :=
  Vector.ofFn fun n =>
    if n.val % 2 = 0 then hexChar ((v[n.val / 2]'(by omega)).extractLsb' 4 4)
    else hexChar ((v[n.val / 2]'(by omega)).extractLsb' 0 4)

/-- SER (R145). -/
def execSer (s : State) : Host.Outcome State Fault Refusal :=
  issue s .ser { s with dg := serBytes s.h, nxt := .hex }

/-- HEX (R146). -/
def execHex (s : State) : Host.Outcome State Fault Refusal :=
  issue s .hex { s with hx := hexChars s.dg, fsm := .final, nxt := .none }

end Sys2Proof.Machine
end

