-- ==== Sys2Proof/Machine/Lifecycle.lean ====
section
/-!
DEFINITION. The start of an invocation: the host command START and the micro-operation INIT
(40_digest_command.md R83, R84).
-/
namespace Sys2Proof.Machine

/-- What INIT does: `H` takes the initialisation vector and the sequencer begins; `A..D`, `M`, `BLK`,
`DG` and `HX` "keep whatever they held" (R84). -/
def State.initialised (s : State) : State :=
  { s with h := iv, fsm := .initd, nxt := .fetch, blk := 0, i := 0 }

/-- The policy for a length of 2^61 bytes or more (41_padding.md R102): `wrap` and `saturate` do not
refuse the START, `refuse` and `reject` do. -/
def overflowRefusal : LenOverflow → Option Refusal
  | .refuse => some .lengthOverflow
  | .wrap => none
  | .saturate => none
  | .reject => some .lengthRejected

/-- Why the launch memory cannot hold the message (92_eei_decisions.md D16). -/
def spaceRefusal (s : State) : Option Refusal :=
  if s.par.msgSpaceBytes < s.msgLen.toNat then some .messageTooLong else none

/-- Why START has no meaning in `s`: the preconditions of R83 in order, with the open parameters
LEN_OVERFLOW and MSG_SPACE_BYTES (log 5). -/
def startRefusal (s : State) : Option Refusal :=
  if s.busy then some .startWhileBusy
  else if maxMsgBytes < s.msgLen.toNat then
    match overflowRefusal s.par.lenOverflow with
    | some r => some r
    | none => spaceRefusal s
  else spaceRefusal s

/-- START: "performs INIT (rule R84) as one step" (R83). -/
def execStart (s : State) : Host.Outcome State Fault Refusal :=
  match startRefusal s with
  | some r => .refused r
  | none => .next s.initialised

/-- INIT (R84), "issued only as the effect of START", hence in `IDLE` or `FINAL` (10_state.md R18). -/
def execInit (s : State) : Host.Outcome State Fault Refusal :=
  if s.busy then .refused .notEnabled else .next s.initialised

end Sys2Proof.Machine
end

