-- ==== Sys2Proof/Machine/Unpacking.lean ====
section
/-!
DEFINITION. The block unpacker UNPACK and the load of the working registers LOADW (42_unpack.md
R110, R111).
-/
namespace Sys2Proof.Machine

/-- `M[k] = LE32(BLK[4k], BLK[4k+1], BLK[4k+2], BLK[4k+3])`, all sixteen (R110). -/
def unpackWords (v : Vector Byte 64) : Vector Word 16 :=
  Vector.ofFn fun k =>
    le32 (v[4 * k.val]'(by omega)) (v[4 * k.val + 1]'(by omega)) (v[4 * k.val + 2]'(by omega))
      (v[4 * k.val + 3]'(by omega))

/-- UNPACK (R110). -/
def execUnpack (s : State) : Host.Outcome State Fault Refusal :=
  issue s .unpack { s with m := unpackWords s.block, nxt := .loadw }

/-- LOADW (R111). -/
def execLoadw (s : State) : Host.Outcome State Fault Refusal :=
  issue s .loadw { s with w := s.h, nxt := .rnd, i := 0 }

end Sys2Proof.Machine
end

