-- ==== Sys2Proof/Machine/Dispatch.lean ====
section
/-!
DEFINITION. One arm per instruction.
-/
namespace Sys2Proof.Machine

def exec (i : Instr) (s : State) : Host.Outcome State Fault Refusal :=
  match i with
  | .start => Sys2Proof.Machine.execStart s
  | .init => Sys2Proof.Machine.execInit s
  | .fetch => Sys2Proof.Machine.execFetch s
  | .unpack => Sys2Proof.Machine.execUnpack s
  | .loadw => Sys2Proof.Machine.execLoadw s
  | .rnd1 k => Sys2Proof.Machine.execRnd1 k s
  | .rnd2 k => Sys2Proof.Machine.execRnd2 k s
  | .rnd3 k => Sys2Proof.Machine.execRnd3 k s
  | .rnd4 k => Sys2Proof.Machine.execRnd4 k s
  | .chain => Sys2Proof.Machine.execChain s
  | .ser => Sys2Proof.Machine.execSer s
  | .hex => Sys2Proof.Machine.execHex s

end Sys2Proof.Machine
end

