-- ==== Sys2Proof/Machine/Sequencer.lean ====
section
/-!
DEFINITION. The sequencer, which stands in place of a program counter and an instruction fetch
(10_state.md R17, R18, 20_memory.md R50): the word it issues, and the core's step.
-/
namespace Sys2Proof.Machine

/-- The micro-operation word the sequencer issues: the code of `nxt` as `op`, and the round index
where `nxt = RND`, else 0 (30_encoding.md R70). "In `IDLE` and `FINAL` no micro-operation is
enabled" (10_state.md R18). -/
def State.issuedWord (s : State) : Option (BitVec 9) :=
  if s.busy then
    match s.nxt with
    | .none => none
    | .fetch => some (Nxt.fetch.code ++ 0#6)
    | .unpack => some (Nxt.unpack.code ++ 0#6)
    | .loadw => some (Nxt.loadw.code ++ 0#6)
    | .rnd => some (Nxt.rnd.code ++ s.i)
    | .chain => some (Nxt.chain.code ++ 0#6)
    | .ser => some (Nxt.ser.code ++ 0#6)
    | .hex => some (Nxt.hex.code ++ 0#6)
  else none

/-- The core takes a step: it runs the micro-operation the sequencer issues; where it issues none
"the core does nothing until START" (60_exceptions.md R170; log 14). -/
def coreStep (s : State) : Host.Outcome State Fault Refusal :=
  match s.issuedWord with
  | none => .next s
  | some u =>
    match decodeUop u with
    | .ok i => exec i s
    | .error _ => .refused .reservedWord

/-- The sequencer names the micro-operation with operation code `op` and round index `i`, and the
host makes no move at the next step; INIT is issued by a START instead (10_state.md R17), and FETCH
names block 0 where `blk` is past the last block. -/
def State.presentUop (s : State) (op : BitVec 3) (i : BitVec 6) : State :=
  if op = 0 then
    { s with
      host := some (.writeCtrl 1) :: s.host
      fsm := if s.busy then .idle else s.fsm
      nxt := .none }
  else
    let b := if op = 1 ∧ s.nb ≤ s.blk.toNat then 0 else s.blk
    { s with
      host := none :: s.host
      fsm := if op = 1 ∧ b = 0 then .initd else .proc
      nxt := Nxt.ofCode op
      blk := b
      i := if op = 4 then i else s.i }

/-- The instruction of `nbits` bits `w` made the one the next step runs (log 4): one byte is a CTRL
write by the host, two bytes are a micro-operation word named by the sequencer. A pattern that is no
instruction changes nothing, since nothing can present it (30_encoding.md R71). -/
def State.present (s : State) (nbits w : Nat) : State :=
  match decodeTableWord nbits w with
  | none => s
  | some i =>
    match uopWord i with
    | none => { s with host := some (.writeCtrl 1) :: s.host }
    | some u => s.presentUop (opField u) (indexField u)

end Sys2Proof.Machine
end

