-- ==== Sys2Proof/Machine/HostPort.lean ====
section
/-!
DEFINITION. The interface registers and the host's moves (10_state.md R21, 60_exceptions.md R157,
70_reset_and_hazards.md R175, R178, R179).
-/
namespace Sys2Proof.Machine

/-- The value a host reads from an interface register (R21): CTRL reads as 0; DIGEST and HEX are
defined only when `DONE = 1`, and a read before that is the fault of R157 (log 8). -/
def readReg (s : State) : HostReg → Except Fault HostValue
  | .ctrl => .ok (.ctrl 0)
  | .status => .ok (.status s.status)
  | .msgLen => .ok (.msgLen s.msgLen)
  | .digest => if s.done then .ok (.digest s.dg) else .error (.readBeforeDone .digest)
  | .hex => if s.done then .ok (.hex s.hx) else .error (.readBeforeDone .hex)

/-- The reset input (R175): every register takes its value of `State.reset` (log 11); the message
space, the parameters and the host's further moves are outside the core and stay. -/
def State.resetBy (s : State) : State :=
  { State.reset with msg := s.msg, host := s.host, par := s.par }

/-- One move of the host. A write the host "has no such move" for is refused (R157; log 7); a read
has no side effect (R21). DESIGN CHOICE, safe (log 19): at rest a message byte may be placed at any
address of 61 bits, one at or above MSG_LEN or MSG_SPACE_BYTES too. -/
def hostMove (a : HostAct) (s : State) : Host.Outcome State Fault Refusal :=
  match a with
  | .reset _ => .next s.resetBy
  | .writeMsgLen n => if s.busy then .refused .hostWriteWhileBusy else .next { s with msgLen := n }
  | .placeByte addr b =>
    if s.busy then .refused .hostWriteWhileBusy
    else .next { s with msg := memWrite s.msg addr.toNat b }
  | .writeCtrl v =>
    match decodeCtrl v with
    | .ok i => exec i s
    | .error _ => .next s
  | .read r =>
    match readReg s r with
    | .ok _ => .next s
    | .error f => .fault f

/-- The next turn: the host's move where it makes one, else the core's step (log 3). -/
def turn (s : State) : Host.Outcome State Fault Refusal :=
  match s.host with
  | [] => coreStep s
  | none :: rest => coreStep { s with host := rest }
  | some a :: rest => hostMove a { s with host := rest }

end Sys2Proof.Machine
end

