-- ==== Sys2Proof/Machine/Step.lean ====
section
/-!
DEFINITION. One step of the machine, and the state whose next step runs a given instruction.
-/
namespace Sys2Proof.Machine

/-- One step: a move of the host, or one micro-operation of the core (00_scope.md R6f). -/
def step (s : State) : Host.Outcome State Fault Refusal := turn s

/-- `s` with the instruction of bits `w` as the one the next step runs (log 4). -/
def State.withFetchWord (s : State) (nbits w : Nat) : State := s.present nbits w

end Sys2Proof.Machine
end

