-- ==== Sys2Proof/Machine/Digest.lean ====
section
/-!
DEFINITION. DIGEST as a function (40_digest_command.md R80), written from the rules for `pad`,
COMPRESS, `ser` and `hex`; no meaning calls it. The step machine computes it (R89).
-/
namespace Sys2Proof.Machine

/-- `pad(msg)` (41_padding.md R95): the message, 0x80, `z = (55 - n) mod 64` zero bytes, the bit
length as 8 little-endian bytes. -/
def pad (msg : List Byte) : List Byte :=
  msg ++ [0x80] ++ List.replicate ((119 - msg.length % 64) % 64) 0x00
    ++ (List.range 8).map (le64Byte (BitVec.ofNat 64 (8 * msg.length)))

/-- Bytes `64b` to `64b + 63` of a padded message (30_encoding.md R64); its length is a multiple of
64, so for `b < NB` no byte is missing. -/
def blockOf (pm : List Byte) (b : Nat) : Vector Byte 64 :=
  Vector.ofFn fun k => pm.getD (64 * b + k.val) 0

/-- ROUND(i, (A, B, C, D), M), the phase by `i[5:4]` (43_compression.md R122). -/
def round (i : BitVec 6) (q : Quad) (m : Vector Word 16) : Quad :=
  if phaseOf i = 0 then round1 i q m
  else if phaseOf i = 1 then round2 i q m
  else if phaseOf i = 2 then round3 i q m
  else round4 i q m

/-- Rounds 0 to `k - 1` in ascending order. -/
def rounds (m : Vector Word 16) : Nat → Quad → Quad
  | 0, q => q
  | k + 1, q => round (BitVec.ofNat 6 k) (rounds m k q) m

/-- COMPRESS(H, block) (43_compression.md R120). -/
def compress (h : Quad) (block : Vector Byte 64) : Quad :=
  h.add (rounds (unpackWords block) 64 h)

/-- `H` after blocks 0 to `k - 1` of a padded message, from the initialisation vector (R80). -/
def chainBlocks (pm : List Byte) : Nat → Quad
  | 0 => iv
  | k + 1 => compress (chainBlocks pm k) (blockOf pm k)

/-- The 16 bytes of DIGEST (R80). -/
def digestBytes (msg : List Byte) : Vector Byte 16 :=
  serBytes (chainBlocks (pad msg) (blockCount msg.length))

/-- DIGEST(msg), 32 characters; a message above MAX_MSG_BYTES is refused (R80). -/
def digest (msg : List Byte) : Option (Vector Byte 32) :=
  if maxMsgBytes < msg.length then none else some (hexChars (digestBytes msg))

end Sys2Proof.Machine
end

