-- ==== Sys2Proof/Safety.lean ====
section
/-!
DEFINITION. What claims about runs are stated in: the message a state holds, the invariants of the
control and of the data, and which state is live at each point of an invocation.
-/
namespace Sys2Proof.Machine

/-- Every byte of the message has been placed (70_reset_and_hazards.md R178 step 2). -/
def State.messageReadable (s : State) : Prop :=
  ∀ a, a < s.msgLen.toNat → (memRead s.msg a).isSome

/-- MSG and MSG_LEN hold the message `msg`: "byte `j` of the space is `Message[j]`" (20_memory.md
R40). -/
def State.holdsMessage (s : State) (msg : List Byte) : Prop :=
  s.msgLen.toNat = msg.length ∧ ∀ a, a < msg.length → memRead s.msg a = msg[a]?

/-- The host makes no move at the next step. -/
def State.hostSilent (s : State) : Prop := s.host.head? = none ∨ s.host.head? = some none

/-- The state a step begins from once the host's entry for it is taken off the list. -/
def State.turnTaken (s : State) : State := { s with host := s.host.tail }

/-- START meets its preconditions in `s` (40_digest_command.md R83). -/
def State.startable (s : State) : Prop :=
  s.busy = false ∧ s.msgLen.toNat ≤ maxMsgBytes ∧ s.msgLen.toNat ≤ s.par.msgSpaceBytes

/-- The micro-operation to execute next works on a block, `nxt` being FETCH, UNPACK, LOADW, RND or
CHAIN (10_state.md R18). -/
def Nxt.onBlock : Nxt → Bool
  | .none => false
  | .fetch => true
  | .unpack => true
  | .loadw => true
  | .rnd => true
  | .chain => true
  | .ser => false
  | .hex => false

/-- The control invariant: the memory's form, the parameter's range, and which values of the
sequencer and the outputs go together (10_state.md R17, R18, R22, 40_digest_command.md R82). -/
structure State.Inv (s : State) : Prop where
  memory : Memory.wf s.msg
  params : s.par.wf
  resting : s.busy = false → s.nxt = .none
  working : s.busy = true → s.nxt ≠ .none
  initialized : s.fsm = .initd → s.nxt = .fetch ∧ s.blk = 0 ∧ s.h = iv
  lengthAdmitted : s.busy = true → s.msgLen.toNat ≤ s.par.msgSpaceBytes
  blockBelow : s.nxt.onBlock = true → s.blk.toNat < s.nb
  blockEnd : s.nxt = .ser ∨ s.nxt = .hex → s.blk.toNat = s.nb
  lastRound : s.nxt = .chain → s.i = 63
  bytesReady : s.nxt = .hex → s.dg = serBytes s.h
  finished : s.fsm = .final → s.dg = serBytes s.h ∧ s.hx = hexChars s.dg

/-- `H` after blocks 0 to `k - 1` of the message in `s`, from the initialisation vector; `none` where a
byte of them was not placed. -/
def State.folded (s : State) : Nat → Option Quad
  | 0 => some iv
  | k + 1 =>
    match s.folded k, readBlock s k with
    | some h, some v => some (compress h v)
    | _, _ => none

/-- The data invariant: "blocks 0 to `blk - 1` have been folded into `HA..HD`; block `blk` is in
progress" (40_digest_command.md R82), with what BLK, M and A..D hold at each point of that block. -/
structure State.DataInv (s : State) : Prop where
  state : s.busy = true → s.folded s.blk.toNat = some s.h
  buffer : s.busy = true → s.nxt.onBlock = true → s.nxt ≠ .fetch →
    readBlock s s.blk.toNat = some s.block
  words : s.nxt = .loadw ∨ s.nxt = .rnd ∨ s.nxt = .chain → s.m = unpackWords s.block
  working : s.nxt = .rnd → s.w = rounds s.m s.i.toNat s.h
  worked : s.nxt = .chain → s.w = rounds s.m 64 s.h

/-- Two states that agree on all that a later step of the invocation, or the host, can read
(10_state.md R31): `HA..HD` until SER, BLK at UNPACK, M at LOADW and the rounds, A..D at the rounds and
CHAIN, DG at HEX and when done, HX when done. -/
structure State.LiveEq (s t : State) : Prop where
  fsm : s.fsm = t.fsm
  nxt : s.nxt = t.nxt
  msgLen : s.msgLen = t.msgLen
  msg : s.msg = t.msg
  host : s.host = t.host
  par : s.par = t.par
  blk : s.busy = true → s.blk = t.blk
  i : s.nxt = .rnd → s.i = t.i
  h : s.busy = true → s.nxt ≠ .hex → s.h = t.h
  block : s.nxt = .unpack → s.block = t.block
  m : s.nxt = .loadw ∨ s.nxt = .rnd → s.m = t.m
  w : s.nxt = .rnd ∨ s.nxt = .chain → s.w = t.w
  dg : s.nxt = .hex ∨ s.done = true → s.dg = t.dg
  hx : s.done = true → s.hx = t.hx

/-- Two outcomes of one kind: next states that agree on what is live, or the same reason to stop. -/
def OutcomesAgree (x y : Host.Outcome State Fault Refusal) : Prop :=
  match x, y with
  | .next s, .next t => s.LiveEq t
  | .fault a, .fault b => a = b
  | .refused a, .refused b => a = b
  | _, _ => False

end Sys2Proof.Machine
end

