-- ==== Sys2Proof/Certificates/Slice0/Obligations.lean ====
section
/-!
DEFINITION. The statements for the provers, in the order of OBLIGATIONS.json.
-/
open Sys2Proof
open Sys2Proof.Machine

/-! ### Encoding -/

/-- 30_encoding.md section 5 (R70, R73, R74): no bit of an encoding is dropped. -/
def Obligations.DecodeInvertsEncode : Prop :=
  ∀ i : Instr, i.wellFormed = true → decode (encode i) = .ok i

/-- 30_encoding.md section 5 (R70, R72): what the decoder accepts is a well-formed instruction, and a
word of a micro-operation has that one reading. START's byte is judged by bit 0 alone (log 15). -/
def Obligations.DecodedBytesEncodeBack : Prop :=
  ∀ (bs : List Byte) (i : Instr), decode bs = .ok i →
    i.wellFormed = true ∧ (i ≠ .start → encode i = bs) ∧
      (i = .start → ∃ b, bs = [b] ∧ b.getLsbD 0 = true)

/-- R71: the reserved words are exactly those with `op ≠ 4` and `i ≠ 0`, and 71 of the 512 words are
defined (7 and 64 of them). That the sequencer never produces a reserved word, which R71 marks as its
own inference, is SequencerIssuesNamedWord's. -/
def Obligations.ReservedWordsRefused : Prop :=
  (∀ u : BitVec 9,
    (opField u ≠ 4 ∧ indexField u ≠ 0 → decodeUop u = .error (.reserved u)) ∧
    (opField u = 4 ∨ indexField u = 0 → ∃ i, decodeUop u = .ok i)) ∧
  ((List.range 512).countP fun n =>
    (opField (BitVec.ofNat 9 n) != 4) && (decodeUop (BitVec.ofNat 9 n)).toOption.isSome) = 7 ∧
  ((List.range 512).countP fun n =>
    (opField (BitVec.ofNat 9 n) == 4) && (decodeUop (BitVec.ofNat 9 n)).toOption.isSome) = 64

/-- 30_encoding.md section 5 and 95_test_vectors.md section 11: words read off the rules' tables. -/
def Obligations.SpecWordsDecode : Prop :=
  decode [0x01] = .ok .start ∧ decodeUop 0x000 = .ok .init ∧ decodeUop 0x040 = .ok .fetch ∧
  decodeUop 0x080 = .ok .unpack ∧ decodeUop 0x0c0 = .ok .loadw ∧
  decodeUop 0x10f = .ok (.rnd1 15) ∧ decodeUop 0x110 = .ok (.rnd2 16) ∧
  decodeUop 0x12f = .ok (.rnd3 47) ∧ decodeUop 0x13f = .ok (.rnd4 63) ∧
  decodeUop 0x140 = .ok .chain ∧ decodeUop 0x180 = .ok .ser ∧ decodeUop 0x1c0 = .ok .hex ∧
  decodeUop 0x17f = .error (.reserved 0x17f)

/-- 30_encoding.md section 3 (R65, R66): the phase of a round index, its message word by the source's
formula and by the step within the phase, and that each phase uses every message word once. -/
def Obligations.RoundIndexSelectsPhaseAndWord : Prop :=
  (∀ i : BitVec 6,
    (phaseOf i).toNat = i.toNat / 16 ∧
    (i.toNat < 16 → (g1 i).val = i.toNat) ∧
    (g2 i).val = (5 * i.toNat + 1) % 16 ∧ (g2 i).val = (5 * (i.toNat % 16) + 1) % 16 ∧
    (g3 i).val = (3 * i.toNat + 5) % 16 ∧ (g3 i).val = (3 * (i.toNat % 16) + 5) % 16 ∧
    (g4 i).val = (7 * i.toNat) % 16 ∧ (g4 i).val = (7 * (i.toNat % 16)) % 16) ∧
  ∀ k : Fin 16,
    (∃! i, phaseOf i = 0 ∧ g1 i = k) ∧ (∃! i, phaseOf i = 1 ∧ g2 i = k) ∧
    (∃! i, phaseOf i = 2 ∧ g3 i = k) ∧ (∃! i, phaseOf i = 3 ∧ g4 i = k)

/-! ### The step -/

/-- 10_state.md section 3 (R17, R18): where the host makes no move, a step is the meaning of the
instruction the issued word decodes to. What the step adds is taking the host's entry off its list. -/
def Obligations.StepRunsIssuedInstruction : Prop :=
  ∀ (s : State) (u : BitVec 9) (i : Instr), s.hostSilent → s.issuedWord = some u →
    decode (wordBytes u) = .ok i → step s = exec i s.turnTaken

/-- 10_state.md R17, R18 and 30_encoding.md R70: the issued word has `nxt` as operation code, the
round index where `nxt = RND` and else 0; in `IDLE` and `FINAL` no word is issued, and in any state
of the invariant a busy core issues one. No issued word is reserved. -/
def Obligations.SequencerIssuesNamedWord : Prop :=
  ∀ s : State,
    (s.busy = false → s.issuedWord = none) ∧
    (s.Inv → s.busy = true → ∃ u, s.issuedWord = some u) ∧
    ∀ u, s.issuedWord = some u →
      opField u = s.nxt.code ∧ indexField u = (if s.nxt = .rnd then s.i else 0) ∧
        s.enabled s.nxt = true ∧ s.nxt ≠ .none ∧ ∃ i, decodeUop u = .ok i

/-- 30_encoding.md R74 and 10_state.md R21: a write of 1 to CTRL is the command START, a write of 0
does nothing. -/
def Obligations.CtrlWriteIsStart : Prop :=
  ∀ (s : State) (rest : List (Option HostAct)),
    (s.host = some (.writeCtrl 1) :: rest → step s = exec .start { s with host := rest }) ∧
    (s.host = some (.writeCtrl 0) :: rest → step s = .next { s with host := rest })

/-- 60_exceptions.md R170 and 10_state.md R18: at rest and with no host move the core does nothing (a
next state is the model's reading, log 14). -/
def Obligations.RestingCoreWaits : Prop :=
  ∀ s : State, s.hostSilent → s.busy = false → step s = .next s.turnTaken

/-! ### What each instruction does -/

/-- 40_digest_command.md section 3 (R83): START in `IDLE` or `FINAL` with a length of the domain that
the launch memory holds performs INIT in one step; BUSY becomes 1 and DONE 0, and DIGEST and HEX can
no longer be read. The bound by MSG_SPACE_BYTES is R7's open parameter (log 5). That a read of DIGEST
or HEX is then a fault is the model's choice (log 8) of the treatments 60_exceptions.md R157 allows. -/
def Obligations.StartBeginsInvocation : Prop :=
  ∀ s : State, s.startable →
    ∃ t, exec .start s = .next t ∧
      t = { s with
            h := ⟨0x67452301, 0xefcdab89, 0x98badcfe, 0x10325476⟩
            fsm := .initd, nxt := .fetch, blk := 0, i := 0 } ∧
      t.busy = true ∧ t.done = false ∧
      readReg t .digest = .error (.readBeforeDone .digest) ∧
      readReg t .hex = .error (.readBeforeDone .hex)

/-- R84: INIT loads the initialisation vector and sets the sequencer, and touches nothing else; the
sequencer never issues its word, so it happens only as the effect of START. -/
def Obligations.InitLoadsVector : Prop :=
  (∀ s : State, s.busy = false →
    exec .init s = .next { s with
      h := ⟨0x67452301, 0xefcdab89, 0x98badcfe, 0x10325476⟩
      fsm := .initd, nxt := .fetch, blk := 0, i := 0 }) ∧
  ∀ s : State, s.issuedWord ≠ some 0x000

/-- R100: FETCH puts bytes 64b to 64b + 63 of the padded message into BLK in one step, needing only
the message bytes among them; what a pure message block, the block of the marker and a last block
without message bytes hold. -/
def Obligations.FetchFillsBlock : Prop :=
  ∀ s : State, s.enabled .fetch = true → s.blk.toNat < s.nb →
    (∀ k, k < 64 → 64 * s.blk.toNat + k < s.msgLen.toNat →
      (memRead s.msg (64 * s.blk.toNat + k)).isSome = true) →
    ∃ v : Vector Byte 64,
      exec .fetch s = .next { s with block := v, fsm := .proc, nxt := .unpack } ∧
      (∀ k (hk : k < 64), padByte s (64 * s.blk.toNat + k) = some v[k]) ∧
      (s.blk.toNat < s.msgLen.toNat / 64 →
        ∀ k (hk : k < 64), memRead s.msg (64 * s.blk.toNat + k) = some v[k]) ∧
      (s.blk.toNat = s.msgLen.toNat / 64 →
        v[s.msgLen.toNat % 64]'(Nat.mod_lt _ (by decide)) = 0x80 ∧
        ∀ k (hk : k < 64), k < s.msgLen.toNat % 64 →
          memRead s.msg (64 * s.blk.toNat + k) = some v[k]) ∧
      (s.blk.toNat = s.msgLen.toNat / 64 + 1 →
        56 ≤ s.msgLen.toNat % 64 ∧ ∀ k (hk : k < 56), v[k] = 0x00)

/-- R96: the four cases of PADBYTE for a length of the documented domain, the length field as the bit
length's little-endian bytes; they do not overlap. -/
def Obligations.PadByteCases : Prop :=
  ∀ (s : State) (j : Nat), s.msgLen.toNat ≤ maxMsgBytes → j < 64 * s.nb →
    s.msgLen.toNat < 64 * s.nb - 8 ∧
    (j < s.msgLen.toNat → padByte s j = memRead s.msg j) ∧
    (j = s.msgLen.toNat → padByte s j = some 0x80) ∧
    (s.msgLen.toNat < j → j < 64 * s.nb - 8 → padByte s j = some 0x00) ∧
    (64 * s.nb - 8 ≤ j →
      padByte s j = some (BitVec.ofNat 8 (8 * s.msgLen.toNat / 2 ^ (8 * (j - (64 * s.nb - 8))))))

/-- R110: UNPACK makes sixteen little-endian words of unsigned bytes in one step. Its clauses (b) and
(d), which R110 marks as its own inferences, are UnpackLosesNothing's. -/
def Obligations.UnpackMakesWords : Prop :=
  ∀ s : State, s.enabled .unpack = true →
    ∃ m : Vector Word 16,
      exec .unpack s = .next { s with m := m, nxt := .loadw } ∧
      (∀ k (hk : k < 16),
        m[k].toNat = s.block[4 * k].toNat + 2 ^ 8 * s.block[4 * k + 1].toNat
          + 2 ^ 16 * s.block[4 * k + 2].toNat + 2 ^ 24 * s.block[4 * k + 3].toNat)

/-- 42_unpack.md, "UNPACK is a pure re-wiring: it loses nothing" and "In the last block" (inferences
R110 marks as its own): every byte is recovered, and of the last block the words 14 and 15 are the low
and high half of the bit length. -/
def Obligations.UnpackLosesNothing : Prop :=
  ∀ s : State, s.enabled .unpack = true →
    ∃ t, exec .unpack s = .next t ∧
      (∀ k (hk : k < 16) j (hj : j < 4), le32Byte t.m[k] j = s.block[4 * k + j]) ∧
      (s.msgLen.toNat ≤ maxMsgBytes → readBlock s (s.nb - 1) = some s.block →
        t.m[14].toNat = 8 * s.msgLen.toNat % 2 ^ 32 ∧ t.m[15].toNat = 8 * s.msgLen.toNat / 2 ^ 32)

/-- R111: LOADW copies `HA..HD` to `A..D`, leaves `HA..HD`, and begins the rounds at 0; the values are
the State after the blocks before this one, for block 0 the IV. -/
def Obligations.LoadwCopiesState : Prop :=
  ∀ s : State, s.enabled .loadw = true →
    exec .loadw s = .next { s with w := s.h, nxt := .rnd, i := 0 } ∧
    (s.DataInv → s.folded s.blk.toNat = some s.h) ∧
    (s.DataInv → s.blk = 0 → s.h = ⟨0x67452301, 0xefcdab89, 0x98badcfe, 0x10325476⟩)

/-- R123: a round of phase 1, its shift amounts and the corners of its mixing function, whose other
forms, inferences R123 marks as its own, are MixingFunctionsSelect's. -/
def Obligations.Rnd1RunsRound : Prop :=
  (∀ (s : State) (i : BitVec 6) (hi : i.toNat < 16), s.enabled .rnd = true → s.i = i →
    exec (.rnd1 i) s = .next { s with
      w := ⟨s.w.d,
        s.w.b + rotl32 (((s.w.b &&& s.w.c) ||| (~~~s.w.b &&& s.w.d)) + s.w.a + romK i + s.m[i.toNat])
          (if i.toNat % 4 = 0 then 7 else if i.toNat % 4 = 1 then 12
            else if i.toNat % 4 = 2 then 17 else 22),
        s.w.b, s.w.c⟩
      i := i + 1 }) ∧
  ∀ b c d : Word,
    mix1 b c d = (b &&& c) ||| (~~~b &&& d) ∧ mix1 0 c d = d ∧ mix1 0xffffffff c d = c

/-- R124: a round of phase 2; the other forms of its mixing function are MixingFunctionsSelect's. -/
def Obligations.Rnd2RunsRound : Prop :=
  (∀ (s : State) (i : BitVec 6), 16 ≤ i.toNat → i.toNat < 32 → s.enabled .rnd = true → s.i = i →
    exec (.rnd2 i) s = .next { s with
      w := ⟨s.w.d,
        s.w.b + rotl32 (((s.w.d &&& s.w.b) ||| (~~~s.w.d &&& s.w.c)) + s.w.a + romK i
            + s.m[(5 * i.toNat + 1) % 16])
          (if i.toNat % 4 = 0 then 5 else if i.toNat % 4 = 1 then 9
            else if i.toNat % 4 = 2 then 14 else 20),
        s.w.b, s.w.c⟩
      i := i + 1 }) ∧
  ∀ b c d : Word,
    mix2 b c d = (d &&& b) ||| (~~~d &&& c) ∧ mix2 b c 0 = c ∧ mix2 b c 0xffffffff = b

/-- R125: a round of phase 3. -/
def Obligations.Rnd3RunsRound : Prop :=
  (∀ (s : State) (i : BitVec 6), 32 ≤ i.toNat → i.toNat < 48 → s.enabled .rnd = true → s.i = i →
    exec (.rnd3 i) s = .next { s with
      w := ⟨s.w.d,
        s.w.b + rotl32 ((s.w.b ^^^ s.w.c ^^^ s.w.d) + s.w.a + romK i + s.m[(3 * i.toNat + 5) % 16])
          (if i.toNat % 4 = 0 then 4 else if i.toNat % 4 = 1 then 11
            else if i.toNat % 4 = 2 then 16 else 23),
        s.w.b, s.w.c⟩
      i := i + 1 }) ∧
  ∀ b c d : Word,
    mix3 b c d = b ^^^ c ^^^ d ∧ mix3 b c d = mix3 c b d ∧ mix3 b c d = mix3 b d c ∧ mix3 b b d = d ∧
    ∀ k, (mix3 b c d).getLsbD k = ((b.getLsbD k).xor (c.getLsbD k)).xor (d.getLsbD k)

/-- R126: a round of phase 4; round 63 ends the rounds of the block (R122). -/
def Obligations.Rnd4RunsRound : Prop :=
  (∀ (s : State) (i : BitVec 6), 48 ≤ i.toNat → s.enabled .rnd = true → s.i = i →
    exec (.rnd4 i) s = .next { s with
      w := ⟨s.w.d,
        s.w.b + rotl32 ((s.w.c ^^^ (s.w.b ||| ~~~s.w.d)) + s.w.a + romK i + s.m[(7 * i.toNat) % 16])
          (if i.toNat % 4 = 0 then 6 else if i.toNat % 4 = 1 then 10
            else if i.toNat % 4 = 2 then 15 else 21),
        s.w.b, s.w.c⟩
      i := if i = 63 then i else i + 1
      nxt := if i = 63 then .chain else .rnd }) ∧
  ∀ b c d : Word, mix4 b c d = c ^^^ (b ||| ~~~d) ∧ mix4 b c 0 = ~~~c ∧ mix4 b c 0xffffffff = c ^^^ b ∧
    (mix4 b c d).toNat < 2 ^ 32

/-- R128: CHAIN adds the working registers into the State word by word modulo 2^32, leaves `A..D`, and
goes on to the next block or to SER. -/
def Obligations.ChainAddsState : Prop :=
  ∀ s : State, s.enabled .chain = true →
    exec .chain s = .next { s with
      h := ⟨s.h.a + s.w.a, s.h.b + s.w.b, s.h.c + s.w.c, s.h.d + s.w.d⟩
      blk := s.blk + 1
      nxt := if s.blk.toNat + 1 < (s.msgLen.toNat + 8) / 64 + 1 then .fetch else .ser }

/-- R145: SER writes the four State words as little-endian bytes in the order `HA, HB, HC, HD`, leaves
them, and takes words made as UNPACK makes them back to their bytes. That SER loses nothing, clause (b),
which R145 marks as its own inference, is SerLosesNothing's. -/
def Obligations.SerWritesDigestBytes : Prop :=
  ∀ s : State, s.enabled .ser = true →
    ∃ d : Vector Byte 16,
      exec .ser s = .next { s with dg := d, nxt := .hex } ∧
      (∀ j (hj : j < 4) k (hk : k < 4),
        d[4 * j + k].toNat = (s.h.get ⟨j, hj⟩).toNat / 2 ^ (8 * k) % 256) ∧
      ∀ x : Vector Byte 16,
        (∀ j (hj : j < 4),
          s.h.get ⟨j, hj⟩ = le32 x[4 * j] x[4 * j + 1] x[4 * j + 2] x[4 * j + 3]) → d = x

/-- R146: HEX writes two lower-case characters per digest byte, high nibble first, leaves DG, and ends
the invocation: DONE becomes 1 and BUSY 0. -/
def Obligations.HexWritesCharacters : Prop :=
  ∀ s : State, s.enabled .hex = true →
    ∃ x t, exec .hex s = .next t ∧ t = { s with hx := x, fsm := .final, nxt := .none } ∧
      t.busy = false ∧ t.done = true ∧
      ∀ m (hm : m < 16),
        x[2 * m].toNat = (if s.dg[m].toNat / 16 ≤ 9 then 0x30 + s.dg[m].toNat / 16
          else 0x61 + (s.dg[m].toNat / 16 - 10)) ∧
        x[2 * m + 1].toNat = (if s.dg[m].toNat % 16 ≤ 9 then 0x30 + s.dg[m].toNat % 16
          else 0x61 + (s.dg[m].toNat % 16 - 10))

/-! ### Where an instruction stops -/

/-- 40_digest_command.md R83 (a) and (b), 41_padding.md R102: where START has no meaning. That each
stop is a refusal is the model's choice (log 5, log 7). -/
def Obligations.StartOutsideDomainRefused : Prop :=
  ∀ s : State,
    (s.busy = true → exec .start s = .refused .startWhileBusy) ∧
    (s.busy = false → maxMsgBytes < s.msgLen.toNat → s.par.lenOverflow = .refuse →
      exec .start s = .refused .lengthOverflow) ∧
    (s.busy = false → maxMsgBytes < s.msgLen.toNat → s.par.lenOverflow = .reject →
      exec .start s = .refused .lengthRejected) ∧
    (s.busy = false → maxMsgBytes < s.msgLen.toNat → s.par.wf → ∃ r, exec .start s = .refused r) ∧
    (s.busy = false → s.msgLen.toNat ≤ maxMsgBytes → s.par.msgSpaceBytes < s.msgLen.toNat →
      exec .start s = .refused .messageTooLong)

/-- 10_state.md R18, "allowed when": a micro-operation the sequencer does not name is refused with no
effect (the refusal is the model's choice, log 9). -/
def Obligations.OutOfTurnRefused : Prop :=
  ∀ (s : State),
    (s.busy = true → exec .init s = .refused .notEnabled) ∧
    (s.enabled .fetch = false → exec .fetch s = .refused .notEnabled) ∧
    (s.enabled .unpack = false → exec .unpack s = .refused .notEnabled) ∧
    (s.enabled .loadw = false → exec .loadw s = .refused .notEnabled) ∧
    (∀ i : BitVec 6, s.enabled .rnd = false ∨ s.i ≠ i →
      exec (.rnd1 i) s = .refused .notEnabled ∧ exec (.rnd2 i) s = .refused .notEnabled ∧
      exec (.rnd3 i) s = .refused .notEnabled ∧ exec (.rnd4 i) s = .refused .notEnabled) ∧
    (∀ r : Instr, r.wellFormed = false → exec r s = .refused .notEnabled) ∧
    (s.enabled .chain = false → exec .chain s = .refused .notEnabled) ∧
    (s.enabled .ser = false → exec .ser s = .refused .notEnabled) ∧
    (s.enabled .hex = false → exec .hex s = .refused .notEnabled)

/-- 10_state.md R18 and 30_encoding.md R71: whatever the state, a step presents no micro-operation out
of turn and no reserved word. -/
def Obligations.StepNeverOutOfTurn : Prop :=
  ∀ s : State, step s ≠ .refused .notEnabled ∧ step s ≠ .refused .reservedWord

/-- 60_exceptions.md R157: a message byte the platform cannot supply is never made up (log 6). -/
def Obligations.FetchNeedsEveryByte : Prop :=
  ∀ (s : State) (k : Nat), s.enabled .fetch = true → s.blk.toNat < s.nb → k < 64 →
    64 * s.blk.toNat + k < s.msgLen.toNat → memRead s.msg (64 * s.blk.toNat + k) = none →
    exec .fetch s = .refused .messageUnreadable

/-! ### What instructions leave unchanged -/

/-- R52: no instruction changes a byte of the message space, nor its length, the parameters, or the
host's moves. -/
def Obligations.InstructionsWriteNoMemory : Prop :=
  ∀ (i : Instr) (s t : State), exec i s = .next t →
    (∀ a, memRead t.msg a = memRead s.msg a) ∧ t.msg = s.msg ∧ t.msgLen = s.msgLen ∧
      t.par = s.par ∧ t.host = s.host

/-- 10_state.md section 8 (R32, the columns written): each register is written by the steps that the
matrix marks and by no other. -/
def Obligations.RegistersWrittenByTheirStepsOnly : Prop :=
  ∀ (i : Instr) (s t : State), exec i s = .next t →
    (i ≠ .start → i ≠ .init → i ≠ .chain → t.h = s.h) ∧
    (i ≠ .loadw → (∀ k, i ≠ .rnd1 k ∧ i ≠ .rnd2 k ∧ i ≠ .rnd3 k ∧ i ≠ .rnd4 k) → t.w = s.w) ∧
    (i ≠ .unpack → t.m = s.m) ∧
    (i ≠ .fetch → t.block = s.block) ∧
    (i ≠ .ser → t.dg = s.dg) ∧
    (i ≠ .hex → t.hx = s.hx) ∧
    (i ≠ .start → i ≠ .init → i ≠ .fetch → i ≠ .hex → t.fsm = s.fsm) ∧
    (i ≠ .start → i ≠ .init → i ≠ .chain → t.blk = s.blk) ∧
    (i ≠ .start → i ≠ .init → i ≠ .loadw →
      (∀ k, i ≠ .rnd1 k ∧ i ≠ .rnd2 k ∧ i ≠ .rnd3 k ∧ i ≠ .rnd4 k) → t.i = s.i)

/-- 10_state.md section 8 (R32, the columns read): what a step writes depends on what the matrix says
it reads and on nothing else. -/
def Obligations.WritesDependOnReadsOnly : Prop :=
  ∀ (i : Instr) (s s' t t' : State), exec i s = .next t → exec i s' = .next t' →
    (i = .start ∨ i = .init → t.h = t'.h ∧ t.fsm = t'.fsm ∧ t.nxt = t'.nxt ∧ t.blk = t'.blk ∧
      t.i = t'.i) ∧
    (i = .fetch → s.blk = s'.blk → s.msgLen = s'.msgLen → s.msg = s'.msg → s.par = s'.par →
      t.block = t'.block) ∧
    (i = .unpack → s.block = s'.block → t.m = t'.m) ∧
    (i = .loadw → s.h = s'.h → t.w = t'.w) ∧
    ((∃ k, i = .rnd1 k ∨ i = .rnd2 k ∨ i = .rnd3 k ∨ i = .rnd4 k) → s.w = s'.w → s.m = s'.m →
      t.w = t'.w ∧ t.nxt = t'.nxt ∧ t.i = t'.i) ∧
    (i = .chain → s.h = s'.h → s.w = s'.w → s.blk = s'.blk → s.msgLen = s'.msgLen →
      t.h = t'.h ∧ t.blk = t'.blk ∧ t.nxt = t'.nxt) ∧
    (i = .ser → s.h = s'.h → t.dg = t'.dg) ∧
    (i = .hex → s.dg = s'.dg → t.hx = t'.hx)

/-! ### Arithmetic and formats -/

/-- 10_state.md section 6: the values of the tables K and S and of the initialisation vector, which the
spec supplies from general knowledge (log 10). -/
def Obligations.ConstantTablesHold : Prop :=
  ((List.range 16).map fun n => romK (BitVec.ofNat 6 n)) =
    [0xd76aa478, 0xe8c7b756, 0x242070db, 0xc1bdceee, 0xf57c0faf, 0x4787c62a, 0xa8304613, 0xfd469501,
     0x698098d8, 0x8b44f7af, 0xffff5bb1, 0x895cd7be, 0x6b901122, 0xfd987193, 0xa679438e, 0x49b40821] ∧
  ((List.range 16).map fun n => romK (BitVec.ofNat 6 (16 + n))) =
    [0xf61e2562, 0xc040b340, 0x265e5a51, 0xe9b6c7aa, 0xd62f105d, 0x02441453, 0xd8a1e681, 0xe7d3fbc8,
     0x21e1cde6, 0xc33707d6, 0xf4d50d87, 0x455a14ed, 0xa9e3e905, 0xfcefa3f8, 0x676f02d9, 0x8d2a4c8a] ∧
  ((List.range 16).map fun n => romK (BitVec.ofNat 6 (32 + n))) =
    [0xfffa3942, 0x8771f681, 0x6d9d6122, 0xfde5380c, 0xa4beea44, 0x4bdecfa9, 0xf6bb4b60, 0xbebfbc70,
     0x289b7ec6, 0xeaa127fa, 0xd4ef3085, 0x04881d05, 0xd9d4d039, 0xe6db99e5, 0x1fa27cf8, 0xc4ac5665] ∧
  ((List.range 16).map fun n => romK (BitVec.ofNat 6 (48 + n))) =
    [0xf4292244, 0x432aff97, 0xab9423a7, 0xfc93a039, 0x655b59c3, 0x8f0ccc92, 0xffeff47d, 0x85845dd1,
     0x6fa87e4f, 0xfe2ce6e0, 0xa3014314, 0x4e0811a1, 0xf7537e82, 0xbd3af235, 0x2ad7d2bb, 0xeb86d391] ∧
  (∀ i : BitVec 6, 4 ≤ (romS i).toNat ∧ (romS i).toNat ≤ 23 ∧
    ∀ j : BitVec 6, i.toNat / 16 = j.toNat / 16 → i.toNat % 4 = j.toNat % 4 → romS i = romS j) ∧
  ((List.range 4).map fun n => romS (BitVec.ofNat 6 n)) = [7, 12, 17, 22] ∧
  ((List.range 4).map fun n => romS (BitVec.ofNat 6 (16 + n))) = [5, 9, 14, 20] ∧
  ((List.range 4).map fun n => romS (BitVec.ofNat 6 (32 + n))) = [4, 11, 16, 23] ∧
  ((List.range 4).map fun n => romS (BitVec.ofNat 6 (48 + n))) = [6, 10, 15, 21] ∧
  iv = ⟨0x67452301, 0xefcdab89, 0x98badcfe, 0x10325476⟩

/-- 43_compression.md section 3, inferences that R123 and R124 mark as their own: what the mixing
functions of phases 1 and 2 select bit by bit, and their other forms. -/
def Obligations.MixingFunctionsSelect : Prop :=
  ∀ b c d : Word,
    (∀ k, (mix1 b c d).getLsbD k = if b.getLsbD k then c.getLsbD k else d.getLsbD k) ∧
    mix1 b c d = d ^^^ (b &&& (c ^^^ d)) ∧ mix1 b c d = (b &&& c) ^^^ (~~~b &&& d) ∧
    mix1 b c d = (b &&& c) + (~~~b &&& d) ∧
    (∀ k, (mix2 b c d).getLsbD k = if d.getLsbD k then b.getLsbD k else c.getLsbD k) ∧
    mix2 b c d = mix1 d b c ∧ mix2 b c d = c ^^^ (d &&& (b ^^^ c))

/-- 00_scope.md R8 and 43_compression.md R121 (f): rotation as shifts of unbounded integers, bit by
bit, and by 0. -/
def Obligations.RotateLeftIsCircular : Prop :=
  ∀ (x : Word) (s : BitVec 5),
    (s ≠ 0 → (rotl32 x s).toNat = x.toNat * 2 ^ s.toNat % 2 ^ 32 + x.toNat / 2 ^ (32 - s.toNat)) ∧
    (s = 0 → rotl32 x s = x) ∧
    ∀ k, k < 32 → (rotl32 x s).getLsbD ((k + s.toNat) % 32) = x.getLsbD k

/-- 30_encoding.md R69 and 44_finalization.md R149: every character is `0` to `9` or `a` to `f`, and
DG and HX carry the same information. -/
def Obligations.HexRenderingIsFaithful : Prop :=
  (∀ (d : Vector Byte 16) (n : Nat) (hn : n < 32),
    (0x30 ≤ (hexChars d)[n].toNat ∧ (hexChars d)[n].toNat ≤ 0x39) ∨
      (0x61 ≤ (hexChars d)[n].toNat ∧ (hexChars d)[n].toNat ≤ 0x66)) ∧
  ∀ d d' : Vector Byte 16, hexChars d = hexChars d' → d = d'

/-- R62: the padded message has exactly `64*NB` bytes, and the table of `z`, `NB`, and the blocks that
hold the marker and the length field. -/
def Obligations.PaddedLengthFillsBlocks : Prop :=
  (∀ msg : List Byte, (pad msg).length = 64 * blockCount msg.length) ∧
  ∀ n : Nat,
    1 ≤ blockCount n ∧ blockCount n = (n + (55 + 64 - n % 64) % 64 + 9) / 64 ∧
    (n % 64 ≤ 55 → (55 + 64 - n % 64) % 64 = 55 - n % 64 ∧ blockCount n = n / 64 + 1 ∧
      (64 * blockCount n - 8) / 64 = n / 64) ∧
    (56 ≤ n % 64 → (55 + 64 - n % 64) % 64 = 119 - n % 64 ∧ blockCount n = n / 64 + 2 ∧
      (64 * blockCount n - 8) / 64 = n / 64 + 1) ∧
    (n ≤ maxMsgBytes → blockCount n ≤ 2 ^ 55 + 1)

/-- 41_padding.md R95 and R96: for a message of the domain that a state holds, PADBYTE is `pad` byte
by byte, and FETCH's blocks are its blocks. -/
def Obligations.PadByteIsPaddedMessage : Prop :=
  ∀ (s : State) (msg : List Byte), s.holdsMessage msg → msg.length ≤ maxMsgBytes →
    (∀ j, j < 64 * s.nb → padByte s j = (pad msg)[j]?) ∧
    ∀ b, b < s.nb → readBlock s b = some (blockOf (pad msg) b)

/-- R97: the invariants (a) to (f) of the padded message. -/
def Obligations.PaddedMessageShape : Prop :=
  (∀ msg : List Byte,
    (pad msg).length % 64 = 0 ∧ 64 ≤ (pad msg).length ∧
    (pad msg).take msg.length = msg ∧
    (pad msg)[msg.length]? = some 0x80 ∧
    (∀ j, msg.length < j → j < (pad msg).length - 8 → (pad msg)[j]? = some 0x00) ∧
    (∀ k, k < 8 → (pad msg)[(pad msg).length - 8 + k]? =
      some (BitVec.ofNat 8 (8 * msg.length % 2 ^ 64 / 2 ^ (8 * k)))) ∧
    ∀ b, (b + 2 < blockCount msg.length → 64 * (b + 1) ≤ msg.length) ∧
      (64 * (b + 1) ≤ msg.length ↔ ∀ k, k < 64 → 64 * b + k < msg.length) ∧
      (64 * (b + 1) ≤ msg.length → ∀ k, k < 64 → (pad msg)[64 * b + k]? = msg[64 * b + k]?)) ∧
  ∀ msg msg' : List Byte, msg.length ≤ maxMsgBytes → msg'.length ≤ maxMsgBytes →
    pad msg = pad msg' → msg = msg'

/-- R98: the empty message is one block, 0x80 and 63 zero bytes, needing no byte of MSG; as words,
0x00000080 and fifteen zeros. -/
def Obligations.EmptyMessageIsOneBlock : Prop :=
  pad [] = 0x80 :: List.replicate 63 0x00 ∧ blockCount 0 = 1 ∧
  ∀ s : State, s.msgLen = 0 →
    ∃ v, readBlock s 0 = some v ∧ v.toList = 0x80 :: List.replicate 63 0x00 ∧
      (unpackWords v).toList = 0x00000080 :: List.replicate 15 0

/-! ### Status, life cycle, host -/

/-- R20: BUSY and DONE are functions of `fsm`, both 0 after reset; START and HEX change them and no
micro-operation of an invocation in progress does; STATUS shows them with FSM. -/
def Obligations.StatusFollowsLifeCycle : Prop :=
  (∀ s : State,
    (s.busy = true ↔ s.fsm = .initd ∨ s.fsm = .proc) ∧ (s.done = true ↔ s.fsm = .final) ∧
    s.status.extractLsb' 0 2 = s.fsm.code ∧ s.status.getLsbD 2 = s.busy ∧
    s.status.getLsbD 3 = s.done) ∧
  State.reset.busy = false ∧ State.reset.done = false ∧
  (∀ s t : State, exec .start s = .next t → t.busy = true ∧ t.done = false) ∧
  (∀ s t : State, exec .hex s = .next t → t.busy = false ∧ t.done = true) ∧
  ∀ (i : Instr) (s t : State), i ≠ .start → i ≠ .init → i ≠ .hex → exec i s = .next t →
    t.busy = s.busy ∧ t.done = s.done

/-- 40_digest_command.md section 2 (R82): the life cycle's transitions and what leaves each state. -/
def Obligations.LifeCycleTransitions : Prop :=
  ∀ s t : State, s.Inv → step s = .next t →
    t.fsm = s.fsm ∨
    ((s.fsm = .idle ∨ s.fsm = .final) ∧ t.fsm = .initd ∧
      s.host.head? = some (some (.writeCtrl 1))) ∨
    (s.fsm = .initd ∧ t.fsm = .proc ∧ s.hostSilent ∧ s.nxt = .fetch ∧ s.blk = 0) ∨
    (s.fsm = .proc ∧ t.fsm = .final ∧ s.hostSilent ∧ s.nxt = .hex ∧ s.blk.toNat = s.nb) ∨
    (t.fsm = .idle ∧ ∃ b, s.host.head? = some (some (.reset b)))

/-- 40_digest_command.md R87: the end is "reached by the HEX step and by no other". -/
def Obligations.OnlyHexEndsInvocation : Prop :=
  ∀ s t : State, s.done = false → step s = .next t → t.done = true →
    s.hostSilent ∧ s.enabled .hex = true ∧ exec .hex s.turnTaken = .next t

/-- 70_reset_and_hazards.md section 1 (R175): reset at any time brings `IDLE` and `NONE`, with BUSY and
DONE 0. The rest is the model's: that a read of DIGEST or HEX is then a fault is its choice (log 8), that
reset leaves the message, the parameters and the host's further moves is its choice (log 11), and that a
START beside reset is one move with it, in which reset wins, is its reading (log 12). -/
def Obligations.ResetAbandonsInvocation : Prop :=
  ∀ (s : State) (withStart : Bool) (rest : List (Option HostAct)),
    s.host = some (.reset withStart) :: rest →
    ∃ t, step s = .next t ∧ t.fsm = .idle ∧ t.nxt = .none ∧ t.busy = false ∧ t.done = false ∧
      readReg t .digest = .error (.readBeforeDone .digest) ∧
      readReg t .hex = .error (.readBeforeDone .hex) ∧
      t.msg = s.msg ∧ t.par = s.par ∧ t.host = rest

/-- 10_state.md R21: what each interface register reads as, without side effect. The fault of a read
of DIGEST or HEX before DONE is the treatment 60_exceptions.md R157 names (log 8). -/
def Obligations.HostReadsRegisters : Prop :=
  (∀ s : State,
    readReg s .ctrl = .ok (.ctrl 0) ∧ readReg s .status = .ok (.status s.status) ∧
    readReg s .msgLen = .ok (.msgLen s.msgLen) ∧
    (s.done = true → readReg s .digest = .ok (.digest s.dg) ∧ readReg s .hex = .ok (.hex s.hx))) ∧
  ∀ (s : State) (r : HostReg) (rest : List (Option HostAct)), s.host = some (.read r) :: rest →
    (s.done = true ∨ r = .ctrl ∨ r = .status ∨ r = .msgLen → step s = .next { s with host := rest }) ∧
    (s.done = false → r = .digest ∨ r = .hex → step s = .fault (.readBeforeDone r))

/-- 10_state.md R21 and 70_reset_and_hazards.md R178: MSG_LEN and the message are written while
`BUSY = 0`; a write while busy is no move of the host (its refusal is the model's choice, log 7). That a
byte may be placed at every address of 61 bits is the model's choice (log 19). -/
def Obligations.HostWritesAtRestOnly : Prop :=
  (∀ (s : State) (n : BitVec 64) (rest : List (Option HostAct)),
    s.host = some (.writeMsgLen n) :: rest →
    (s.busy = false → step s = .next { s with host := rest, msgLen := n }) ∧
    (s.busy = true → step s = .refused .hostWriteWhileBusy)) ∧
  ∀ (s : State) (a : BitVec 61) (b : Byte) (rest : List (Option HostAct)),
    s.host = some (.placeByte a b) :: rest →
    (s.busy = false → ∃ mem, step s = .next { s with host := rest, msg := mem } ∧
      memRead mem a.toNat = some b ∧ ∀ x, x ≠ a.toNat → memRead mem x = memRead s.msg x) ∧
    (s.busy = true → step s = .refused .hostWriteWhileBusy)

/-- 44_finalization.md R147 and 10_state.md R22: DG and HX hold their values while DONE = 1, which lasts
until START or reset. -/
def Obligations.ResultStableWhileDone : Prop :=
  ∀ s t : State, s.done = true → step s = .next t →
    (t.done = true → t.dg = s.dg ∧ t.hx = s.hx) ∧
    (t.done = false → s.host.head? = some (some (.writeCtrl 1)) ∨
      ∃ b, s.host.head? = some (some (.reset b)))

/-! ### Invariants and the whole invocation -/

/-- 10_state.md R30 with the model's reset values (log 1, log 3, log 5, log 6): the state after reset
meets the invariants. -/
def Obligations.ResetMeetsInvariants : Prop :=
  State.reset.Inv ∧ State.reset.DataInv ∧ State.reset.fsm = .idle ∧ State.reset.nxt = .none

/-- 10_state.md R17, R18, R22, 40_digest_command.md R82: every step keeps the control invariant. -/
def Obligations.StepKeepsControlInvariant : Prop :=
  ∀ s t : State, s.Inv → step s = .next t → t.Inv

/-- 40_digest_command.md R82, 43_compression.md R120, R129: every step keeps the data invariant, "blocks
0 to `blk - 1` have been folded into `HA..HD`". -/
def Obligations.StepKeepsDataInvariant : Prop :=
  ∀ s t : State, s.Inv → s.DataInv → step s = .next t → t.DataInv

/-- 40_digest_command.md R80, R87: in any state of the invariants, the HEX step leaves the digest of the
message the state holds, and no corrupted or partial one (60_exceptions.md R162 b). -/
def Obligations.FinishedResultIsDigest : Prop :=
  ∀ (s : State) (msg : List Byte), s.Inv → s.DataInv → s.hostSilent → s.nxt = .hex →
    s.holdsMessage msg →
    ∃ t, step s = .next t ∧ t.done = true ∧ t.dg = digestBytes msg ∧ digest msg = some t.hx

/-- 43_compression.md R120, R129, 40_digest_command.md R85: the 68 steps of one block are COMPRESS, and
nothing else is carried to the next block but `blk`. -/
def Obligations.BlockStepsCompress : Prop :=
  ∀ (s : State) (v : Vector Byte 64), s.enabled .fetch = true → s.blk.toNat < s.nb →
    s.msgLen.toNat ≤ maxMsgBytes → readBlock s s.blk.toNat = some v → (∀ a ∈ s.host, a = none) →
    ∃ t, core.run 68 s = .next t ∧ t.h = compress s.h v ∧ t.blk.toNat = s.blk.toNat + 1 ∧
      t.fsm = .proc ∧ t.nxt = (if s.blk.toNat + 1 < s.nb then .fetch else .ser) ∧
      t.msg = s.msg ∧ t.msgLen = s.msgLen ∧ t.par = s.par ∧ t.host = s.host.drop 68

/-- 40_digest_command.md R80, R85, R89: from any state in which START may be given, whatever its
registers hold, the step machine's `3 + 68*NB` steps compute DIGEST of the message. -/
def Obligations.InvocationComputesDigest : Prop :=
  ∀ (s : State) (msg : List Byte) (rest : List (Option HostAct)),
    s.startable → s.holdsMessage msg → s.host = some (.writeCtrl 1) :: rest →
    (∀ a ∈ rest, a = none) →
    ∃ t, core.run (3 + 68 * s.nb) s = .next t ∧ t.fsm = .final ∧ t.blk.toNat = s.nb ∧
      t.dg = digestBytes msg ∧ digest msg = some t.hx

/-- R182: every invocation in the domain whose message is in place takes exactly `3 + 68*NB` steps: it
is busy after each earlier one and done after the last. -/
def Obligations.InvocationTakesExactSteps : Prop :=
  ∀ (s : State) (rest : List (Option HostAct)),
    s.startable → s.messageReadable → s.host = some (.writeCtrl 1) :: rest →
    (∀ a ∈ rest, a = none) →
    (∀ k, 1 ≤ k → k < 3 + 68 * ((s.msgLen.toNat + 8) / 64 + 1) →
      ∃ t, core.run k s = .next t ∧ t.busy = true) ∧
    ∃ t, core.run (3 + 68 * ((s.msgLen.toNat + 8) / 64 + 1)) s = .next t ∧ t.done = true

/-- 10_state.md R31: every register is written before it is read. Two states that agree on what is live
take steps of one kind to states that agree on what is live. -/
def Obligations.LiveStateDeterminesStep : Prop :=
  ∀ s t : State, s.LiveEq t → OutcomesAgree (step s) (step t)

/-- 40_digest_command.md R81 and 10_state.md R31: START makes two cores with one message agree on all
that is live, whatever reset or an earlier invocation left in their registers. -/
def Obligations.StartErasesHistory : Prop :=
  ∀ s t : State, s.startable → t.busy = false → s.msgLen = t.msgLen → s.msg = t.msg →
    s.host = t.host → s.par = t.par →
    ∃ s' t', exec .start s = .next s' ∧ exec .start t = .next t' ∧ s'.LiveEq t'

/-- The model's own fields (log 3, log 5): a step never changes the parameters and takes one entry off
the host's list. -/
def Obligations.StepKeepsParametersAndTurns : Prop :=
  ∀ s t : State, step s = .next t → t.par = s.par ∧ t.host = s.host.tail

/-- 20_memory.md section 5: the message and its length stand still during an invocation, which the spec
lays on the host as an obligation. That a host write while busy has no next state is the model's choice
(log 7), and so is that a reset while busy leaves the message and sets its length (log 11). -/
def Obligations.MessageFixedWhileBusy : Prop :=
  ∀ s t : State, s.busy = true → step s = .next t →
    t.msg = s.msg ∧ (t.msgLen = s.msgLen ∨ ∃ b, s.host.head? = some (some (.reset b)))

/-- 60_exceptions.md R155: in any state of the invariant, with the message in place and no move of the
host, the core takes a step and cannot fail. -/
def Obligations.CoreNeverFails : Prop :=
  ∀ s : State, s.Inv → s.messageReadable → s.hostSilent → ∃ t, step s = .next t

/-! ### Clauses the rules mark as inferences -/

/-- 20_memory.md section 1 (R41): a read of the message at or above `n` is refused, whatever bytes lie
there, and a read below `n` answers the byte that was placed. FETCH issues no read at or above `n` and
needs each byte in one block, inferences R41 marks as its own. That a byte below `n` which was not placed
is a refusal by that name is the model's choice (log 6). -/
def Obligations.MessageReadsStayInMessage : Prop :=
  ∀ s : State,
    (∀ a, s.msgLen.toNat ≤ a → msgRead s a = .error .addressOutsideMessage) ∧
    (∀ a b, a < s.msgLen.toNat → memRead s.msg a = some b → msgRead s a = .ok b) ∧
    (∀ a, a < s.msgLen.toNat → memRead s.msg a = none → msgRead s a = .error .messageUnreadable) ∧
    (∀ mem : Memory, (∀ a, a < s.msgLen.toNat → memRead mem a = memRead s.msg a) →
      (∀ j, padByte { s with msg := mem } j = padByte s j) ∧
      ∀ b, readBlock { s with msg := mem } b = readBlock s b) ∧
    ∀ a, a < s.msgLen.toNat → a / 64 < s.nb ∧ ∀ b, (∃ k, k < 64 ∧ 64 * b + k = a) ↔ b = a / 64

/-- 44_finalization.md, "SER is a pure re-wiring and loses nothing" (an inference R145 marks as its own):
LE32 of each four bytes of DG is the State word they were made of. -/
def Obligations.SerLosesNothing : Prop :=
  ∀ s : State, s.enabled .ser = true →
    ∃ t, exec .ser s = .next t ∧
      ∀ j (hj : j < 4),
        le32 t.dg[4 * j] t.dg[4 * j + 1] t.dg[4 * j + 2] t.dg[4 * j + 3] = s.h.get ⟨j, hj⟩
end

