-- ==== Sys2Proof/Laws/State.lean ====
section
/-!
SUPPORT. What each named state update leaves in each field, one lemma per field per update.
-/
namespace Sys2Proof.Machine

@[simp] theorem State.initialised_h (s : State) : (s.initialised).h = iv := rfl
@[simp] theorem State.initialised_w (s : State) : (s.initialised).w = s.w := rfl
@[simp] theorem State.initialised_m (s : State) : (s.initialised).m = s.m := rfl
@[simp] theorem State.initialised_block (s : State) : (s.initialised).block = s.block := rfl
@[simp] theorem State.initialised_fsm (s : State) : (s.initialised).fsm = .initd := rfl
@[simp] theorem State.initialised_nxt (s : State) : (s.initialised).nxt = .fetch := rfl
@[simp] theorem State.initialised_blk (s : State) : (s.initialised).blk = 0 := rfl
@[simp] theorem State.initialised_i (s : State) : (s.initialised).i = 0 := rfl
@[simp] theorem State.initialised_msgLen (s : State) : (s.initialised).msgLen = s.msgLen := rfl
@[simp] theorem State.initialised_dg (s : State) : (s.initialised).dg = s.dg := rfl
@[simp] theorem State.initialised_hx (s : State) : (s.initialised).hx = s.hx := rfl
@[simp] theorem State.initialised_msg (s : State) : (s.initialised).msg = s.msg := rfl
@[simp] theorem State.initialised_host (s : State) : (s.initialised).host = s.host := rfl
@[simp] theorem State.initialised_par (s : State) : (s.initialised).par = s.par := rfl

@[simp] theorem State.fetched_h (s : State) (v : Vector Byte 64) : (s.fetched v).h = s.h := rfl
@[simp] theorem State.fetched_w (s : State) (v : Vector Byte 64) : (s.fetched v).w = s.w := rfl
@[simp] theorem State.fetched_m (s : State) (v : Vector Byte 64) : (s.fetched v).m = s.m := rfl
@[simp] theorem State.fetched_block (s : State) (v : Vector Byte 64) : (s.fetched v).block = v := rfl
@[simp] theorem State.fetched_fsm (s : State) (v : Vector Byte 64) : (s.fetched v).fsm = .proc := rfl
@[simp] theorem State.fetched_nxt (s : State) (v : Vector Byte 64) : (s.fetched v).nxt = .unpack := rfl
@[simp] theorem State.fetched_blk (s : State) (v : Vector Byte 64) : (s.fetched v).blk = s.blk := rfl
@[simp] theorem State.fetched_i (s : State) (v : Vector Byte 64) : (s.fetched v).i = s.i := rfl
@[simp] theorem State.fetched_msgLen (s : State) (v : Vector Byte 64) : (s.fetched v).msgLen = s.msgLen := rfl
@[simp] theorem State.fetched_dg (s : State) (v : Vector Byte 64) : (s.fetched v).dg = s.dg := rfl
@[simp] theorem State.fetched_hx (s : State) (v : Vector Byte 64) : (s.fetched v).hx = s.hx := rfl
@[simp] theorem State.fetched_msg (s : State) (v : Vector Byte 64) : (s.fetched v).msg = s.msg := rfl
@[simp] theorem State.fetched_host (s : State) (v : Vector Byte 64) : (s.fetched v).host = s.host := rfl
@[simp] theorem State.fetched_par (s : State) (v : Vector Byte 64) : (s.fetched v).par = s.par := rfl

@[simp] theorem State.resetBy_h (s : State) : (s.resetBy).h = State.reset.h := rfl
@[simp] theorem State.resetBy_w (s : State) : (s.resetBy).w = State.reset.w := rfl
@[simp] theorem State.resetBy_m (s : State) : (s.resetBy).m = State.reset.m := rfl
@[simp] theorem State.resetBy_block (s : State) : (s.resetBy).block = State.reset.block := rfl
@[simp] theorem State.resetBy_fsm (s : State) : (s.resetBy).fsm = State.reset.fsm := rfl
@[simp] theorem State.resetBy_nxt (s : State) : (s.resetBy).nxt = State.reset.nxt := rfl
@[simp] theorem State.resetBy_blk (s : State) : (s.resetBy).blk = State.reset.blk := rfl
@[simp] theorem State.resetBy_i (s : State) : (s.resetBy).i = State.reset.i := rfl
@[simp] theorem State.resetBy_msgLen (s : State) : (s.resetBy).msgLen = State.reset.msgLen := rfl
@[simp] theorem State.resetBy_dg (s : State) : (s.resetBy).dg = State.reset.dg := rfl
@[simp] theorem State.resetBy_hx (s : State) : (s.resetBy).hx = State.reset.hx := rfl
@[simp] theorem State.resetBy_msg (s : State) : (s.resetBy).msg = s.msg := rfl
@[simp] theorem State.resetBy_host (s : State) : (s.resetBy).host = s.host := rfl
@[simp] theorem State.resetBy_par (s : State) : (s.resetBy).par = s.par := rfl

@[simp] theorem State.afterRound_h (s : State) (q : Quad) : (s.afterRound q).h = s.h := by
  unfold State.afterRound; split <;> rfl
@[simp] theorem State.afterRound_w (s : State) (q : Quad) : (s.afterRound q).w = q := by
  unfold State.afterRound; split <;> rfl
@[simp] theorem State.afterRound_m (s : State) (q : Quad) : (s.afterRound q).m = s.m := by
  unfold State.afterRound; split <;> rfl
@[simp] theorem State.afterRound_block (s : State) (q : Quad) : (s.afterRound q).block = s.block := by
  unfold State.afterRound; split <;> rfl
@[simp] theorem State.afterRound_fsm (s : State) (q : Quad) : (s.afterRound q).fsm = s.fsm := by
  unfold State.afterRound; split <;> rfl
@[simp] theorem State.afterRound_nxt (s : State) (q : Quad) : (s.afterRound q).nxt = if s.i = 63 then .chain else s.nxt := by
  unfold State.afterRound; split <;> rfl
@[simp] theorem State.afterRound_blk (s : State) (q : Quad) : (s.afterRound q).blk = s.blk := by
  unfold State.afterRound; split <;> rfl
@[simp] theorem State.afterRound_i (s : State) (q : Quad) : (s.afterRound q).i = if s.i = 63 then s.i else s.i + 1 := by
  unfold State.afterRound; split <;> rfl
@[simp] theorem State.afterRound_msgLen (s : State) (q : Quad) : (s.afterRound q).msgLen = s.msgLen := by
  unfold State.afterRound; split <;> rfl
@[simp] theorem State.afterRound_dg (s : State) (q : Quad) : (s.afterRound q).dg = s.dg := by
  unfold State.afterRound; split <;> rfl
@[simp] theorem State.afterRound_hx (s : State) (q : Quad) : (s.afterRound q).hx = s.hx := by
  unfold State.afterRound; split <;> rfl
@[simp] theorem State.afterRound_msg (s : State) (q : Quad) : (s.afterRound q).msg = s.msg := by
  unfold State.afterRound; split <;> rfl
@[simp] theorem State.afterRound_host (s : State) (q : Quad) : (s.afterRound q).host = s.host := by
  unfold State.afterRound; split <;> rfl
@[simp] theorem State.afterRound_par (s : State) (q : Quad) : (s.afterRound q).par = s.par := by
  unfold State.afterRound; split <;> rfl

end Sys2Proof.Machine
end

