-- ==== Sys2Proof/Laws/Ops.lean ====
section
/-!
SUPPORT. What each shared operation does, said once: the MSG space, the issue of a
micro-operation, the reading of a block, and the status bits.
-/
namespace Sys2Proof.Machine

/-! ### Status bits -/

theorem State.busy_iff (s : State) : s.busy = true ↔ s.fsm = .initd ∨ s.fsm = .proc := by
  unfold State.busy
  cases s.fsm <;> decide

theorem State.done_iff (s : State) : s.done = true ↔ s.fsm = .final := by
  unfold State.done
  cases s.fsm <;> decide

theorem State.not_busy_iff (s : State) : s.busy = false ↔ s.fsm = .idle ∨ s.fsm = .final := by
  unfold State.busy
  cases s.fsm <;> decide

theorem State.busy_congr {s t : State} (h : s.fsm = t.fsm) : s.busy = t.busy := by
  rw [State.busy, State.busy, h]

theorem State.done_congr {s t : State} (h : s.fsm = t.fsm) : s.done = t.done := by
  rw [State.done, State.done, h]

/-! ### The MSG space -/

theorem memRead_memWrite_same (mem : Memory) (a : Nat) (b : Byte) :
    memRead (memWrite mem a b) a = some b := by
  induction mem with
  | nil => simp [memWrite, memRead]
  | cons c rest ih =>
    unfold memWrite
    split
    · simp [memRead]
    · split
      · simp [memRead]
      · rename_i hlt hne
        simp only [memRead, ih]
        rw [if_neg (fun e => hne e.symm)]

theorem memRead_memWrite_other (mem : Memory) {a x : Nat} (b : Byte) (hx : x ≠ a) :
    memRead (memWrite mem a b) x = memRead mem x := by
  induction mem with
  | nil => simp [memWrite, memRead, hx.symm]
  | cons c rest ih =>
    unfold memWrite
    split
    · simp [memRead, hx.symm]
    · split
      · rename_i _ he
        subst he
        simp [memRead, hx.symm]
      · simp [memRead, ih]

/-- Below `n` the core's read gives what was placed. -/
theorem toOption_msgRead {s : State} {a : Nat} (h : a < s.msgLen.toNat) :
    (msgRead s a).toOption = memRead s.msg a := by
  unfold msgRead
  rw [if_pos h]
  cases memRead s.msg a <;> rfl

/-- At or above `n` the core's read is refused. -/
theorem msgRead_of_le {s : State} {a : Nat} (h : s.msgLen.toNat ≤ a) :
    msgRead s a = .error .addressOutsideMessage := by
  unfold msgRead
  rw [if_neg (Nat.not_lt.2 h)]

/-- The core's read answers a byte exactly where one was placed below `n`. -/
theorem msgRead_eq_ok {s : State} {a : Nat} {b : Byte} :
    msgRead s a = .ok b ↔ a < s.msgLen.toNat ∧ memRead s.msg a = some b := by
  unfold msgRead
  split
  · cases memRead s.msg a <;> simp_all
  · simp_all

theorem msgRead_congr {s t : State} (hl : s.msgLen = t.msgLen) (hm : s.msg = t.msg) (a : Nat) :
    msgRead s a = msgRead t a := by
  rw [msgRead, msgRead, hl, hm]

/-- A write adds no address but the one written. -/
theorem fst_of_mem_memWrite {mem : Memory} {a : Nat} {b : Byte} {c : Host.Cell}
    (h : c ∈ memWrite mem a b) : c.1 = a ∨ c ∈ mem := by
  induction mem with
  | nil => simp_all [memWrite]
  | cons d rest ih =>
    unfold memWrite at h
    split at h
    · rcases List.mem_cons.1 h with rfl | h
      · exact .inl rfl
      · exact .inr h
    · split at h
      · rcases List.mem_cons.1 h with rfl | h
        · exact .inl rfl
        · exact .inr (List.mem_cons_of_mem _ h)
      · rcases List.mem_cons.1 h with rfl | h
        · exact .inr List.mem_cons_self
        · exact (ih h).imp_right (List.mem_cons_of_mem _)

theorem pairwise_memWrite {mem : Memory} {a : Nat} {b : Byte}
    (h : (mem.map Prod.fst).Pairwise (· < ·)) : ((memWrite mem a b).map Prod.fst).Pairwise (· < ·) := by
  induction mem with
  | nil => simp [memWrite]
  | cons c rest ih =>
    rw [List.map_cons, List.pairwise_cons] at h
    unfold memWrite
    split
    · rename_i hlt
      simp only [List.map_cons, List.pairwise_cons]
      refine ⟨?_, h⟩
      intro x hx
      rcases List.mem_cons.1 hx with rfl | hx
      · exact hlt
      · exact lt_trans hlt (h.1 x hx)
    · split
      · rename_i _ he
        subst he
        simpa using h
      · rename_i hlt hne
        simp only [List.map_cons, List.pairwise_cons]
        refine ⟨?_, ih h.2⟩
        intro x hx
        obtain ⟨d, hd, rfl⟩ := List.mem_map.1 hx
        rcases fst_of_mem_memWrite hd with he | hd
        · omega
        · exact h.1 _ (List.mem_map.2 ⟨d, hd, rfl⟩)

/-- The one operation that writes the MSG space keeps its canonical form. -/
theorem Memory.wf_memWrite {mem : Memory} {a : Nat} {b : Byte} (h : Memory.wf mem)
    (ha : a < 2 ^ 61) : Memory.wf (memWrite mem a b) := by
  refine ⟨pairwise_memWrite h.1, fun c hc => ?_⟩
  rcases fst_of_mem_memWrite hc with he | hc
  · omega
  · exact h.2 c hc

theorem Memory.wf_reset : Memory.wf State.reset.msg := by
  simp [Memory.wf, State.reset]

/-! ### Issuing a micro-operation -/

theorem State.enabled_iff (s : State) (n : Nxt) :
    s.enabled n = true ↔ s.busy = true ∧ s.nxt = n := by
  simp [State.enabled]

theorem State.enabled_congr {s t : State} (hf : s.fsm = t.fsm) (hn : s.nxt = t.nxt) (n : Nxt) :
    s.enabled n = t.enabled n := by
  simp [State.enabled, hn, State.busy_congr hf]

theorem issue_eq_next {s t u : State} {n : Nxt} :
    issue s n t = .next u ↔ s.enabled n = true ∧ u = t := by
  unfold issue
  split
  · rename_i h
    exact ⟨fun e => ⟨h, by cases e; rfl⟩, fun e => by rw [e.2]⟩
  · rename_i h
    exact ⟨fun e => (by cases e), fun e => absurd e.1 h⟩

theorem issue_of_enabled {s t : State} {n : Nxt} (h : s.enabled n = true) :
    issue s n t = .next t := by
  simp [issue, h]

theorem issueRound_eq_next {s u : State} {ph : BitVec 2} {i : BitVec 6} {q : Quad} :
    issueRound s ph i q = .next u ↔
      s.i = i ∧ phaseOf i = ph ∧ s.enabled .rnd = true ∧ u = s.afterRound q := by
  unfold issueRound
  split
  · rw [issue_eq_next]
    tauto
  · simp only [reduceCtorEq, false_iff]
    tauto

theorem execFetch_eq_next {s u : State} :
    execFetch s = .next u ↔
      s.enabled .fetch = true ∧ s.blk.toNat < s.nb ∧
        ∃ v, readBlock s s.blk.toNat = some v ∧ u = s.fetched v := by
  unfold execFetch
  split
  · split
    · simp only [reduceCtorEq, false_iff]
      omega
    · rename_i he hb
      split
      · rename_i v hv
        constructor
        · intro e
          cases e
          exact ⟨he, by omega, v, hv, rfl⟩
        · rintro ⟨-, -, v', hv', rfl⟩
          rw [hv] at hv'
          cases hv'
          rfl
      · rename_i hv
        constructor
        · intro e
          cases e
        · rintro ⟨-, -, v', hv', rfl⟩
          rw [hv] at hv'
          cases hv'
  · rename_i he
    exact ⟨fun e => (by cases e), fun e => absurd e.1 he⟩

theorem execStart_eq_next {s u : State} :
    execStart s = .next u ↔ startRefusal s = none ∧ u = s.initialised := by
  unfold execStart
  split
  · rename_i r h
    exact ⟨fun e => (by cases e), fun e => by rw [h] at e; cases e.1⟩
  · rename_i h
    exact ⟨fun e => ⟨h, by cases e; rfl⟩, fun e => by rw [e.2]⟩

theorem execInit_eq_next {s u : State} :
    execInit s = .next u ↔ s.busy = false ∧ u = s.initialised := by
  unfold execInit
  split
  · rename_i h
    exact ⟨fun e => (by cases e), fun e => by rw [h] at e; cases e.1⟩
  · rename_i h
    exact ⟨fun e => ⟨by simpa using h, by cases e; rfl⟩, fun e => by rw [e.2]⟩

/-- What START needs to begin: the core at rest and the launch memory large enough. -/
theorem rests_of_startRefusal {s : State} (h : startRefusal s = none) :
    s.busy = false ∧ s.msgLen.toNat ≤ s.par.msgSpaceBytes := by
  unfold startRefusal spaceRefusal at h
  repeat' split at h
  all_goals simp_all

/-! ### The padding unit -/

/-- A block is read exactly when each of its 64 bytes is, and it holds those bytes. -/
theorem readBlock_eq_some {s : State} {b : Nat} {v : Vector Byte 64} :
    readBlock s b = some v ↔ ∀ k (hk : k < 64), padByte s (64 * b + k) = some v[k] := by
  unfold readBlock
  split
  · rename_i hr
    rw [Option.some.injEq]
    constructor
    · rintro rfl k hk
      simp
    · intro h
      ext k hk
      have := h k hk
      simp [Option.get_of_eq_some _ this]
  · rename_i hr
    simp only [reduceCtorEq, false_iff]
    intro h
    apply hr
    intro k
    simp [h k.val k.isLt]

theorem padByte_message {s : State} {j : Nat} (h : j < s.msgLen.toNat) :
    padByte s j = memRead s.msg j := by
  rw [padByte, if_pos h, toOption_msgRead h]

theorem padByte_congr {s t : State} (hl : s.msgLen = t.msgLen) (hm : s.msg = t.msg)
    (hp : s.par = t.par) (j : Nat) : padByte s j = padByte t j := by
  unfold padByte State.nb
  rw [msgRead_congr hl hm, hl, hp]

theorem readBlock_congr {s t : State} (hl : s.msgLen = t.msgLen) (hm : s.msg = t.msg)
    (hp : s.par = t.par) (b : Nat) : readBlock s b = readBlock t b := by
  have h : ∀ v, readBlock s b = some v ↔ readBlock t b = some v := fun v => by
    simp only [readBlock_eq_some, padByte_congr hl hm hp]
  exact Option.ext h

theorem State.nb_congr {s t : State} (hl : s.msgLen = t.msgLen) : s.nb = t.nb := by
  simp [State.nb, hl]

end Sys2Proof.Machine
end

