-- ==== Sys2Proof/Laws/PerInstr.lean ====
section
/-!
SUPPORT. Statements made per instruction: an instruction's encoding has the length of its format
(30_encoding.md R72: one length of word; R74: the CTRL write).
-/
namespace Sys2Proof.Laws.EncodedLength

/-- START is the one byte of a CTRL write; every micro-operation is the two bytes of a 9-bit word,
the upper one 0 or 1. -/
def Statement (i : Instr) : Prop :=
  match uopWord i with
  | none => i = .start ∧ encode i = [1]
  | some u => (encode i).length = 2 ∧ ∃ lo hi, encode i = [lo, hi] ∧ hi.toNat = u.toNat / 256

theorem of_word {i : Instr} {u : BitVec 9} (h : uopWord i = some u) : Statement i := by
  simp only [Statement, encode, h]
  have hi : ∀ u : BitVec 9, ((u.extractLsb' 8 1).setWidth 8).toNat = u.toNat / 256 := by decide
  exact ⟨rfl, _, _, rfl, hi u⟩

theorem start : Statement .start := ⟨rfl, rfl⟩
theorem init : Statement .init := of_word rfl
theorem fetch : Statement .fetch := of_word rfl
theorem unpack : Statement .unpack := of_word rfl
theorem loadw : Statement .loadw := of_word rfl
theorem rnd1 (i : BitVec 6) : Statement (.rnd1 i) := of_word rfl
theorem rnd2 (i : BitVec 6) : Statement (.rnd2 i) := of_word rfl
theorem rnd3 (i : BitVec 6) : Statement (.rnd3 i) := of_word rfl
theorem rnd4 (i : BitVec 6) : Statement (.rnd4 i) := of_word rfl
theorem chain : Statement .chain := of_word rfl
theorem ser : Statement .ser := of_word rfl
theorem hex : Statement .hex := of_word rfl

end Sys2Proof.Laws.EncodedLength
end

