-- ==== Sys2Proof/Laws/Step.lean ====
section
/-!
SUPPORT. What one step can do, said once: the instruction the sequencer issues, the next state of
each instruction, and the cases of a step that answers a next state.
-/
namespace Sys2Proof.Machine

theorem decodeUop_round (i : BitVec 6) : decodeUop (Nxt.rnd.code ++ i) = .ok (roundInstr i) := by
  revert i; decide

/-- A decoded round runs ROUND of its index. -/
theorem exec_roundInstr (i : BitVec 6) (s : State) :
    exec (roundInstr i) s = issueRound s (phaseOf i) i (round i s.w s.m) := by
  have key : phaseOf i = 0 ∨ phaseOf i = 1 ∨ phaseOf i = 2 ∨ phaseOf i = 3 := by
    revert i; decide
  unfold roundInstr round
  change exec (if phaseOf i = 0 then _ else if phaseOf i = 1 then _ else if phaseOf i = 2 then _ else _) s
    = _
  rcases key with h | h | h | h <;> simp [h, exec, execRnd1, execRnd2, execRnd3, execRnd4]

/-- What the core's step is, micro-operation by micro-operation. -/
theorem coreStep_eq (s : State) :
    coreStep s =
      if s.busy then
        match s.nxt with
        | .none => .next s
        | .fetch => execFetch s
        | .unpack => execUnpack s
        | .loadw => execLoadw s
        | .rnd => issueRound s (phaseOf s.i) s.i (round s.i s.w s.m)
        | .chain => execChain s
        | .ser => execSer s
        | .hex => execHex s
      else .next s := by
  unfold coreStep State.issuedWord
  cases hb : s.busy
  · simp
  · cases hn : s.nxt
    case rnd => simp [decodeUop_round, exec_roundInstr]
    all_goals rfl

/-- A step in which the host makes no move is the core's. -/
theorem step_of_silent {s : State} (h : s.hostSilent) : step s = coreStep s.turnTaken := by
  rcases s with ⟨_, _, _, _, _, _, _, _, _, _, _, _, host, _⟩
  cases host with
  | nil => rfl
  | cons a rest =>
    cases a with
    | none => rfl
    | some a => simp [State.hostSilent] at h

/-- A step in which the host moves is that move. -/
theorem step_of_move {s : State} {a : HostAct} {rest : List (Option HostAct)}
    (h : s.host = some a :: rest) : step s = hostMove a { s with host := rest } := by
  simp [step, turn, h]

theorem step_cases (s : State) :
    (s.hostSilent ∧ step s = coreStep s.turnTaken) ∨
      ∃ a, s.host.head? = some (some a) ∧ step s = hostMove a s.turnTaken := by
  cases hl : s.host with
  | nil => exact .inl ⟨.inl (by simp [hl]), step_of_silent (.inl (by simp [hl]))⟩
  | cons x rest =>
    cases x with
    | none => exact .inl ⟨.inr (by simp [hl]), step_of_silent (.inr (by simp [hl]))⟩
    | some a => exact .inr ⟨a, by simp, by rw [step_of_move hl]; simp [State.turnTaken, hl]⟩

/-- The next states of the core's step: none but these. -/
inductive CoreNext (s : State) : State → Prop where
  | rests (h : s.busy = false ∨ s.nxt = .none) : CoreNext s s
  | fetch (v : Vector Byte 64) (h : s.enabled .fetch = true) (hb : s.blk.toNat < s.nb)
      (hv : readBlock s s.blk.toNat = some v) : CoreNext s (s.fetched v)
  | unpack (h : s.enabled .unpack = true) :
      CoreNext s { s with m := unpackWords s.block, nxt := .loadw }
  | loadw (h : s.enabled .loadw = true) : CoreNext s { s with w := s.h, nxt := .rnd, i := 0 }
  | rnd (h : s.enabled .rnd = true) : CoreNext s (s.afterRound (round s.i s.w s.m))
  | chain (h : s.enabled .chain = true) :
      CoreNext s { s with
        h := s.h.add s.w
        blk := s.blk + 1
        nxt := if s.blk.toNat + 1 < s.nb then .fetch else .ser }
  | ser (h : s.enabled .ser = true) : CoreNext s { s with dg := serBytes s.h, nxt := .hex }
  | hex (h : s.enabled .hex = true) :
      CoreNext s { s with hx := hexChars s.dg, fsm := .final, nxt := .none }

theorem coreNext_of_coreStep {s t : State} (h : coreStep s = .next t) : CoreNext s t := by
  rw [coreStep_eq] at h
  split at h
  · split at h
    · cases h; exact .rests (.inr ‹_›)
    · obtain ⟨he, hb, v, hv, rfl⟩ := execFetch_eq_next.1 h; exact .fetch v he hb hv
    · obtain ⟨he, rfl⟩ := issue_eq_next.1 h; exact .unpack he
    · obtain ⟨he, rfl⟩ := issue_eq_next.1 h; exact .loadw he
    · obtain ⟨-, -, he, rfl⟩ := issueRound_eq_next.1 h; exact .rnd he
    · obtain ⟨he, rfl⟩ := issue_eq_next.1 h; exact .chain he
    · obtain ⟨he, rfl⟩ := issue_eq_next.1 h; exact .ser he
    · obtain ⟨he, rfl⟩ := issue_eq_next.1 h; exact .hex he
  · cases h; exact .rests (.inl (by simpa using ‹¬s.busy = true›))

/-- The next states of a host move: none but these. -/
inductive HostNext (s : State) : HostAct → State → Prop where
  | reset (b : Bool) : HostNext s (.reset b) s.resetBy
  | writeMsgLen (n : BitVec 64) (h : s.busy = false) :
      HostNext s (.writeMsgLen n) { s with msgLen := n }
  | placeByte (a : BitVec 61) (b : Byte) (h : s.busy = false) :
      HostNext s (.placeByte a b) { s with msg := memWrite s.msg a.toNat b }
  | start (h : startRefusal s = none) : HostNext s (.writeCtrl 1) s.initialised
  | ctrlZero : HostNext s (.writeCtrl 0) s
  | read (r : HostReg) : HostNext s (.read r) s

theorem hostNext_of_hostMove {s t : State} {a : HostAct} (h : hostMove a s = .next t) :
    HostNext s a t := by
  cases a with
  | reset b => cases h; exact .reset b
  | writeMsgLen n =>
    simp only [hostMove] at h
    split at h
    · cases h
    · cases h; exact .writeMsgLen n (by simpa using ‹¬s.busy = true›)
  | placeByte a b =>
    simp only [hostMove] at h
    split at h
    · cases h
    · cases h; exact .placeByte a b (by simpa using ‹¬s.busy = true›)
  | writeCtrl v =>
    simp only [hostMove] at h
    have hv : ∀ v : BitVec 1, v = 0 ∨ v = 1 := by decide
    rcases hv v with rfl | rfl
    · cases h; exact .ctrlZero
    · obtain ⟨hn, rfl⟩ := execStart_eq_next.1 (show execStart s = .next t from h)
      exact .start hn
  | read r =>
    simp only [hostMove] at h
    split at h
    · cases h; exact .read r
    · cases h

/-! ### Runs -/

/-- A run begins with its first step. -/
theorem run_succ_of_step {M : Host.Core} {s t : M.State} (h : M.step s = .next t) (k : Nat) :
    M.run (k + 1) s = M.run k t := by
  rw [Host.Core.run, h]

/-- A run goes on from where a shorter one ends. -/
theorem run_add_of_run {M : Host.Core} {a b : Nat} {s t : M.State} (h : M.run a s = .next t) :
    M.run (a + b) s = M.run b t := by
  induction a generalizing s with
  | zero =>
    rw [Nat.zero_add]
    cases h
    rfl
  | succ a ih =>
    rw [Nat.succ_add]
    rw [Host.Core.run] at h ⊢
    cases hs : M.step s with
    | next u => rw [hs] at h; exact ih h
    | fault r => rw [hs] at h; cases h
    | refused r => rw [hs] at h; cases h

end Sys2Proof.Machine
end

