-- ==== Sys2Proof/Tests/Slice0.lean ====
section
/-!
SUPPORT. Tests: the smoke test of WellFormed, words written out from the spec's encodings, single
steps with expected values from 95_test_vectors.md or the rules' examples, and, for every statement
with hypotheses, a witness that meets them.
-/
namespace Sys2Proof.Tests
open Sys2Proof.Machine

/-! ### States and readers of the tests -/

/-- The message "abc" is in place, the core at rest (95_test_vectors.md section 4). -/
def abc : State :=
  { State.reset with msgLen := 3, msg := [(0, 0x61), (1, 0x62), (2, 0x63)] }

/-- A core in block 0 of "abc" about to execute `n`, its state registers holding the IV. -/
def about (n : Nxt) : State := { abc with fsm := .proc, nxt := n, h := iv }

/-- A core about to execute round `i` with working registers `q` and every message word `x`. -/
def aboutRound (i : BitVec 6) (q : Quad) (x : Word) : State :=
  { about .rnd with i := i, w := q, m := Vector.replicate 16 x }

/-- What `f` reads of a next state. -/
def after {α : Type} (f : State → α) : Host.Outcome State Fault Refusal → Option α
  | .next t => some (f t)
  | .fault _ => none
  | .refused _ => none

/-- Why an outcome is a refusal. -/
def refusalOf : Host.Outcome State Fault Refusal → Option Refusal
  | .next _ => none
  | .fault _ => none
  | .refused r => some r

/-- Block 0 of "abc" (95_test_vectors.md section 4). -/
def abcBlock : Vector Byte 64 :=
  Vector.ofFn fun k =>
    match k.val with
    | 0 => 0x61
    | 1 => 0x62
    | 2 => 0x63
    | 3 => 0x80
    | 56 => 0x18
    | _ => 0x00

/-- The message words of "abc" (95_test_vectors.md section 4). -/
def abcWords : Vector Word 16 :=
  Vector.ofFn fun k =>
    match k.val with
    | 0 => 0x80636261
    | 14 => 0x00000018
    | _ => 0

/-- The state registers after the one block of "abc" (95_test_vectors.md section 4). -/
def abcFinal : Quad := ⟨0x98500190, 0xb04fd23c, 0x7d3f96d6, 0x727fe128⟩

/-- A core about to execute HEX with the digest bytes of "abc". -/
def aboutHex : State :=
  { about .hex with blk := 1, h := abcFinal, dg := serBytes abcFinal }

/-- A core that has finished "abc". -/
def finished : State :=
  { aboutHex with fsm := .final, nxt := .none, hx := hexChars (serBytes abcFinal) }

/-! ### WellFormed: an ill-formed term for each check -/

theorem test_wf_rnd1_range :
    (Instr.rnd1 15).wellFormed = true ∧ (Instr.rnd1 16).wellFormed = false := by decide

theorem test_wf_rnd2_range :
    (Instr.rnd2 16).wellFormed = true ∧ (Instr.rnd2 31).wellFormed = true ∧
    (Instr.rnd2 15).wellFormed = false ∧ (Instr.rnd2 32).wellFormed = false := by decide

theorem test_wf_rnd3_range :
    (Instr.rnd3 32).wellFormed = true ∧ (Instr.rnd3 47).wellFormed = true ∧
    (Instr.rnd3 31).wellFormed = false ∧ (Instr.rnd3 48).wellFormed = false := by decide

theorem test_wf_rnd4_range :
    (Instr.rnd4 48).wellFormed = true ∧ (Instr.rnd4 63).wellFormed = true ∧
    (Instr.rnd4 47).wellFormed = false := by decide

/-! ### Decoding: words bit by bit from 30_encoding.md R70, R74 (op in bits 8..6, i in bits 5..0) -/

theorem test_decode_start : decodeTableWord 8 0b1 = some .start := by decide
theorem test_decode_init : decodeTableWord 16 0b000000000 = some .init := by decide
theorem test_decode_fetch : decodeTableWord 16 0b001000000 = some .fetch := by decide
theorem test_decode_unpack : decodeTableWord 16 0b010000000 = some .unpack := by decide
theorem test_decode_loadw : decodeTableWord 16 0b011000000 = some .loadw := by decide
theorem test_decode_rnd1 : decodeTableWord 16 0b100000000 = some (.rnd1 0) ∧
    decodeTableWord 16 0b100001111 = some (.rnd1 15) := by decide
theorem test_decode_rnd2 : decodeTableWord 16 0b100010000 = some (.rnd2 16) ∧
    decodeTableWord 16 0b100011111 = some (.rnd2 31) := by decide
theorem test_decode_rnd3 : decodeTableWord 16 0b100100000 = some (.rnd3 32) ∧
    decodeTableWord 16 0b100101111 = some (.rnd3 47) := by decide
theorem test_decode_rnd4 : decodeTableWord 16 0b100110000 = some (.rnd4 48) ∧
    decodeTableWord 16 0b100111111 = some (.rnd4 63) := by decide
theorem test_decode_chain : decodeTableWord 16 0b101000000 = some .chain := by decide
theorem test_decode_ser : decodeTableWord 16 0b110000000 = some .ser := by decide
theorem test_decode_hex : decodeTableWord 16 0b111000000 = some .hex := by decide

/-- The reserved words of 95_test_vectors.md section 11. -/
theorem test_decode_reserved :
    decode [0x01, 0x00] = .error (.reserved 0x001) ∧ decode [0x41, 0x00] = .error (.reserved 0x041) ∧
    decode [0xff, 0x00] = .error (.reserved 0x0ff) ∧ decode [0x7f, 0x01] = .error (.reserved 0x17f) ∧
    decode [0xc1, 0x01] = .error (.reserved 0x1c1) ∧ decode [0xff, 0x01] = .error (.reserved 0x1ff) := by
  decide

theorem test_decode_rejects_by_name :
    decode [] = .error (.wrongLength 0) ∧ decode [1, 2, 3] = .error (.wrongLength 3) ∧
    decode [0x00] = .error .ctrlZero ∧ decode [0x00, 0x02] = .error (.tooWide 0x02) := by decide

/-- Each row of the opcode table runs as the first instruction after reset. -/
theorem test_every_row_runs_after_reset :
    (after State.fsm (step (State.reset.withFetchWord 8 0x1)) = some .initd) ∧
    (after State.h (step (State.reset.withFetchWord 16 0x000)) = some iv) ∧
    (after State.nxt (step (State.reset.withFetchWord 16 0x040)) = some .unpack) ∧
    (after State.nxt (step (State.reset.withFetchWord 16 0x080)) = some .loadw) ∧
    (after State.nxt (step (State.reset.withFetchWord 16 0x0c0)) = some .rnd) ∧
    (after State.i (step (State.reset.withFetchWord 16 0x100)) = some 1) ∧
    (after State.i (step (State.reset.withFetchWord 16 0x110)) = some 17) ∧
    (after State.i (step (State.reset.withFetchWord 16 0x120)) = some 33) ∧
    (after State.nxt (step (State.reset.withFetchWord 16 0x13f)) = some .chain) ∧
    (after State.nxt (step (State.reset.withFetchWord 16 0x140)) = some .ser) ∧
    (after State.nxt (step (State.reset.withFetchWord 16 0x180)) = some .hex) ∧
    (after State.fsm (step (State.reset.withFetchWord 16 0x1c0)) = some .final) := by decide

/-! ### One step of each instruction -/

theorem test_start_begins :
    after (fun t => (t.h, t.fsm, t.nxt)) (exec .start { finished with blk := 5, i := 9 }) =
      some (⟨0x67452301, 0xefcdab89, 0x98badcfe, 0x10325476⟩, .initd, .fetch) ∧
    after (fun t => (t.blk, t.i)) (exec .start { finished with blk := 5, i := 9 }) = some (0, 0) := by
  decide

theorem test_start_of_longest_message :
    after State.fsm (exec .start { abc with msgLen := 0x1fffffffffffffff }) = some .initd ∧
    refusalOf (exec .start { abc with msgLen := 0x2000000000000000 }) = some .lengthOverflow := by decide

theorem test_init_keeps_digest :
    after (fun t => (t.dg, t.w)) (exec .init finished) = some (serBytes abcFinal, finished.w) := by
  decide

theorem test_init_while_busy : refusalOf (exec .init (about .fetch)) = some .notEnabled := by decide

/-- The example of R100. -/
theorem test_fetch_abc :
    after (fun t => (t.block, t.fsm, t.nxt)) (exec .fetch abc.initialised) =
      some (abcBlock, .proc, .unpack) := by decide

/-- 95_test_vectors.md section 6, `n = 56`: the second block holds no message byte. -/
theorem test_fetch_spill :
    after (fun t => ((t.block[0], t.block[55]), (t.block[56], t.block[57], t.block[63])))
      (exec .fetch { about .fetch with msgLen := 56, blk := 1 }) =
      some ((0x00, 0x00), (0xc0, 0x01, 0x00)) := by decide

theorem test_unpack_abc :
    after (fun t => (t.m, t.nxt)) (exec .unpack { about .unpack with block := abcBlock }) =
      some (abcWords, .loadw) := by decide

/-- 95_test_vectors.md section 7: no sign, least significant byte first. -/
theorem test_unpack_words :
    le32 0x01 0x23 0x45 0x67 = 0x67452301 ∧ le32 0x00 0x00 0x00 0x80 = 0x80000000 ∧
    le32 0x78 0x56 0x34 0x12 = 0x12345678 := by decide

/-- 95_test_vectors.md section 7. -/
theorem test_loadw :
    after (fun t => (t.w, t.h, t.i)) (exec .loadw { about .loadw with h := ⟨1, 2, 3, 4⟩, i := 63 }) =
      some (⟨1, 2, 3, 4⟩, ⟨1, 2, 3, 4⟩, 0) := by decide

/-- 95_test_vectors.md section 8, third row; section 3, round 0. -/
theorem test_rnd1_first :
    after (fun t => (t.w, t.i)) (exec (.rnd1 0)
      (aboutRound 0 ⟨0x01234567, 0x89abcdef, 0xfedcba98, 0x76543210⟩ 0x80)) =
      some (⟨0x76543210, 0x3efe49da, 0x89abcdef, 0xfedcba98⟩, 1) := by decide

/-- 95_test_vectors.md section 8, round 15. -/
theorem test_rnd1_last :
    after (fun t => (t.w, t.nxt)) (exec (.rnd1 15) (aboutRound 15 ⟨1, 2, 3, 4⟩ 5)) =
      some (⟨4, 0x0b526d04, 2, 3⟩, .rnd) := by decide

/-- 95_test_vectors.md section 8. -/
theorem test_rnd2_first :
    after State.w (exec (.rnd2 16)
      (aboutRound 16 ⟨0x01234567, 0x89abcdef, 0xfedcba98, 0x76543210⟩ 0x80)) =
      some ⟨0x76543210, 0x82ea481e, 0x89abcdef, 0xfedcba98⟩ := by decide

/-- 95_test_vectors.md section 3, round 19, which reads word 0 of the empty message. -/
theorem test_rnd2_word :
    after State.w (exec (.rnd2 19) { about .rnd with
      i := 19
      w := ⟨0xd6819c6a, 0xc095f13a, 0x7bd57a3a, 0x1c7d7513⟩
      m := Vector.ofFn fun k => if k = 0 then 0x80 else 0 }) =
      some ⟨0x1c7d7513, 0xbd782e17, 0xc095f13a, 0x7bd57a3a⟩ := by decide

/-- 95_test_vectors.md section 8. -/
theorem test_rnd3_first :
    after State.w (exec (.rnd3 32)
      (aboutRound 32 ⟨0x01234567, 0x89abcdef, 0xfedcba98, 0x76543210⟩ 0x80)) =
      some ⟨0x76543210, 0xadb816ef, 0x89abcdef, 0xfedcba98⟩ := by decide

/-- 95_test_vectors.md section 3, round 41, which reads word 0 of the empty message. -/
theorem test_rnd3_word :
    after State.w (exec (.rnd3 41) { about .rnd with
      i := 41
      w := ⟨0xabc34e16, 0x4497169d, 0xc5dc8c15, 0x91ca4cb7⟩
      m := Vector.ofFn fun k => if k = 0 then 0x80 else 0 }) =
      some ⟨0x91ca4cb7, 0x76fd93d4, 0x4497169d, 0xc5dc8c15⟩ := by decide

/-- 95_test_vectors.md section 8: the complement of `D` stays within 32 bits. -/
theorem test_rnd4_zero :
    after State.w (exec (.rnd4 48) (aboutRound 48 ⟨0, 0, 0x0f0f0f0f, 0⟩ 0)) =
      some ⟨0, 0x4684cd39, 0, 0x0f0f0f0f⟩ := by decide

/-- 95_test_vectors.md section 8, round 63, after which the rounds of the block are over. -/
theorem test_rnd4_last :
    after (fun t => (t.w, t.nxt, t.i)) (exec (.rnd4 63)
      (aboutRound 63 ⟨0xffffffff, 0xffffffff, 0xffffffff, 0xffffffff⟩ 0xffffffff)) =
      some (⟨0xffffffff, 0x71fd70d9, 0xffffffff, 0xffffffff⟩, .chain, 63) := by decide

/-- 95_test_vectors.md section 9: each word wraps on its own. -/
theorem test_chain_wraps :
    after (fun t => (t.h, t.nxt)) (exec .chain { about .chain with
      h := ⟨0xffffffff, 0, 0xffffffff, 0⟩, w := ⟨1, 0xffffffff, 2, 0xffffffff⟩ }) =
      some (⟨0, 0xffffffff, 1, 0xffffffff⟩, .ser) := by decide

/-- R128: block 0 of a message of 56 bytes is not the last. -/
theorem test_chain_next_block :
    after (fun t => (t.nxt, t.blk)) (exec .chain { about .chain with msgLen := 56 }) =
      some (.fetch, 1) := by decide

/-- 95_test_vectors.md section 10, third row. -/
theorem test_ser :
    after (fun t => (t.dg.toList, t.nxt)) (exec .ser (about .ser)) =
      some ([0x01, 0x23, 0x45, 0x67, 0x89, 0xab, 0xcd, 0xef, 0xfe, 0xdc, 0xba, 0x98, 0x76, 0x54, 0x32,
        0x10], .hex) := by decide

/-- 95_test_vectors.md section 4. -/
theorem test_hex :
    after (fun t => (t.hx.toList, t.done, t.busy)) (exec .hex aboutHex) =
      some ([0x39, 0x30, 0x30, 0x31, 0x35, 0x30, 0x39, 0x38, 0x33, 0x63, 0x64, 0x32, 0x34, 0x66, 0x62,
        0x30, 0x64, 0x36, 0x39, 0x36, 0x33, 0x66, 0x37, 0x64, 0x32, 0x38, 0x65, 0x31, 0x37, 0x66, 0x37,
        0x32], true, false) := by decide

/-- 95_test_vectors.md section 6, "PADBYTE(j) case by case". -/
theorem test_padByte :
    padByte abc 0 = some 0x61 ∧ padByte abc 2 = some 0x63 ∧ padByte abc 3 = some 0x80 ∧
    padByte abc 4 = some 0x00 ∧ padByte abc 55 = some 0x00 ∧ padByte abc 56 = some 0x18 ∧
    padByte abc 57 = some 0x00 ∧ padByte abc 63 = some 0x00 ∧
    padByte { abc with msgLen := 56 } 56 = some 0x80 ∧
    padByte { abc with msgLen := 56 } 119 = some 0x00 ∧
    padByte { abc with msgLen := 56 } 120 = some 0xc0 := by decide

/-- R41: the byte at address 2, left from a longer message, is refused where `n = 2`. -/
theorem test_msgRead :
    msgRead abc 2 = .ok 0x63 ∧ msgRead abc 3 = .error .addressOutsideMessage ∧
    msgRead { abc with msgLen := 2 } 2 = .error .addressOutsideMessage ∧
    msgRead { abc with msgLen := 4 } 3 = .error .messageUnreadable := by decide

/-- 95_test_vectors.md section 6: block counts at the padding boundaries. -/
theorem test_blockCount :
    blockCount 0 = 1 ∧ blockCount 55 = 1 ∧ blockCount 56 = 2 ∧ blockCount 119 = 2 ∧
    blockCount 120 = 3 ∧ blockCount 1000000 = 15626 ∧
    blockCount 2305843009213693951 = 36028797018963969 := by decide

/-- 95_test_vectors.md section 8, "rotation alone". -/
theorem test_rotl32 :
    rotl32 0xdeadbeef 0 = 0xdeadbeef ∧ rotl32 0x80000001 4 = 0x00000018 ∧
    rotl32 0x12345678 23 = 0x3c091a2b ∧ rotl32 0x00000001 31 = 0x80000000 := by decide

/-- 95_test_vectors.md section 4: COMPRESS of the IV and the one block of "abc". -/
theorem test_compress_abc : compress iv abcBlock = abcFinal := by decide +kernel

/-! ### The host's port -/

theorem test_host_reads :
    readReg finished .ctrl = .ok (.ctrl 0) ∧ readReg finished .status = .ok (.status 0b1011) ∧
    readReg (about .rnd) .status = .ok (.status 0b0110) ∧
    readReg abc .digest = .error (.readBeforeDone .digest) := by decide

theorem test_host_writes :
    after (fun t => memRead t.msg 1) (step { abc with host := [some (.placeByte 1 0x7a)] }) =
      some (some 0x7a) ∧
    refusalOf (step { about .rnd with host := [some (.writeMsgLen 7)] }) = some .hostWriteWhileBusy := by
  decide

/-- Log 19: a byte is placed above the launch memory too, and at the highest address. -/
theorem test_place_anywhere :
    after (fun t => memRead t.msg 5)
      (step { abc with par := ⟨.refuse, 2⟩, host := [some (.placeByte 5 0x7a)] }) = some (some 0x7a) ∧
    after (fun t => memRead t.msg 0x1fffffffffffffff)
      (step { abc with host := [some (.placeByte 0x1fffffffffffffff 0x7a)] }) = some (some 0x7a) := by
  decide

theorem test_reset_abandons :
    after (fun t => (t.fsm, t.nxt, t.msg)) (step { about .rnd with host := [some (.reset true)] }) =
      some (.idle, .none, abc.msg) := by decide

/-! ### Witnesses: the hypotheses of each statement are met -/

theorem witness_DecodeInvertsEncode : ∀ i ∈ [Instr.start, .rnd1 0, .rnd1 15, .rnd2 16, .rnd2 31,
    .rnd3 32, .rnd3 47, .rnd4 48, .rnd4 63, .hex], i.wellFormed = true := by decide

theorem witness_DecodedBytesEncodeBack :
    decode [0xff] = .ok .start ∧ decode [0x1f, 0x01] = .ok (.rnd2 31) := by decide

theorem witness_ReservedWordsRefused :
    (opField 0x07f ≠ 4 ∧ indexField 0x07f ≠ 0) ∧ opField 0x13f = 4 ∧ indexField 0x1c0 = 0 := by decide

theorem witness_StepRunsIssuedInstruction :
    (aboutRound 47 iv 0).hostSilent ∧ (aboutRound 47 iv 0).issuedWord = some 0x12f ∧
    decode (wordBytes 0x12f) = .ok (.rnd3 47) ∧
    ({ aboutRound 47 iv 0 with host := [none, some (.writeCtrl 1)] } : State).hostSilent := by
  refine ⟨.inl rfl, by decide, by decide, .inr rfl⟩

theorem witness_Inv_started : abc.initialised.Inv ∧ abc.initialised.busy = true := by
  refine ⟨?_, by decide⟩
  constructor <;> decide

theorem witness_DataInv_started : abc.initialised.DataInv := by
  constructor
  · exact fun _ => rfl
  · exact fun _ _ h => absurd rfl h
  · decide
  · decide
  · decide

theorem witness_SequencerIssuesNamedWord :
    finished.busy = false ∧ (aboutRound 63 iv 0).issuedWord = some 0x13f ∧
    (about .hex).issuedWord = some 0x1c0 := by decide

theorem witness_CtrlWriteIsStart :
    ({ abc with host := [some (.writeCtrl 1), none] } : State).host = some (.writeCtrl 1) :: [none] ∧
    ({ abc with host := [some (.writeCtrl 0)] } : State).host = some (.writeCtrl 0) :: [] := by decide

theorem witness_RestingCoreWaits : abc.hostSilent ∧ abc.busy = false := ⟨.inl rfl, by decide⟩

/-- In `IDLE` and in `FINAL`, at the largest length and at length 0. -/
theorem witness_StartBeginsInvocation :
    abc.startable ∧ finished.startable ∧ State.reset.startable ∧
    ({ abc with msgLen := 0x1fffffffffffffff } : State).startable := by
  unfold State.startable
  decide

theorem witness_InitLoadsVector : finished.busy = false ∧ abc.busy = false := by decide

/-- A pure message block (`n = 64`), the block of the marker, and a last block without message bytes
(`n = 56`). -/
theorem witness_FetchFillsBlock :
    (∃ s : State, s.enabled .fetch = true ∧ s.blk.toNat < s.nb ∧
      (∀ k, k < 64 → 64 * s.blk.toNat + k < s.msgLen.toNat →
        (memRead s.msg (64 * s.blk.toNat + k)).isSome = true) ∧ s.blk.toNat < s.msgLen.toNat / 64) ∧
    (abc.initialised.enabled .fetch = true ∧ abc.initialised.blk.toNat < abc.initialised.nb ∧
      (∀ k, k < 64 → 64 * abc.initialised.blk.toNat + k < abc.initialised.msgLen.toNat →
        (memRead abc.initialised.msg (64 * abc.initialised.blk.toNat + k)).isSome = true) ∧
      abc.initialised.blk.toNat = abc.initialised.msgLen.toNat / 64) ∧
    ∃ s : State, s.enabled .fetch = true ∧ s.blk.toNat < s.nb ∧
      (∀ k, k < 64 → 64 * s.blk.toNat + k < s.msgLen.toNat →
        (memRead s.msg (64 * s.blk.toNat + k)).isSome = true) ∧
      s.blk.toNat = s.msgLen.toNat / 64 + 1 := by
  refine ⟨⟨{ about .fetch with msgLen := 64, msg := (List.range 64).map fun a => (a, 0x61) }, ?_⟩,
    by decide, ⟨{ about .fetch with msgLen := 56, blk := 1 }, by decide⟩⟩
  decide

/-- Each case of PADBYTE at the ends of its range, for the largest length too. -/
theorem witness_PadByteCases :
    abc.msgLen.toNat ≤ maxMsgBytes ∧ 63 < 64 * abc.nb ∧ 64 * abc.nb - 8 = 56 ∧
    ({ abc with msgLen := 0x1fffffffffffffff } : State).msgLen.toNat ≤ maxMsgBytes ∧
    padByte abc 2 = some 0x63 ∧ padByte abc 3 = some 0x80 ∧ padByte abc 55 = some 0x00 ∧
    padByte abc 56 = some 0x18 ∧
    (∃ j, j < 64 * ({ abc with msgLen := 0x1fffffffffffffff } : State).nb ∧
      padByte { abc with msgLen := 0x1fffffffffffffff } j = some 0xf8) := by
  refine ⟨by decide, by decide, by decide, by decide, by decide, by decide, by decide, by decide,
    64 * 36028797018963969 - 8, by decide, by decide⟩

/-- Also of UnpackLosesNothing, whose last clause takes the last block. -/
theorem witness_UnpackMakesWords :
    ({ about .unpack with block := abcBlock } : State).enabled .unpack = true ∧
    ({ about .unpack with block := abcBlock } : State).msgLen.toNat ≤ maxMsgBytes ∧
    readBlock { about .unpack with block := abcBlock } ((about .unpack).nb - 1) = some abcBlock := by
  decide

/-- Block 0, and the last block of a message with two. -/
theorem witness_LoadwCopiesState :
    (about .loadw).enabled .loadw = true ∧
    ({ about .loadw with block := abcBlock, m := abcWords } : State).DataInv ∧
    (about .loadw).blk = 0 := by
  refine ⟨by decide, ?_, rfl⟩
  constructor
  · exact fun _ => rfl
  · decide
  · decide
  · decide
  · decide

/-- The first and the last round of each phase. -/
theorem witness_RoundsRun :
    (∀ i ∈ [0#6, 15, 16, 31, 32, 47, 48, 63],
      (aboutRound i iv 0).enabled .rnd = true ∧ (aboutRound i iv 0).i = i) ∧
    ((0#6).toNat < 16 ∧ (15#6).toNat < 16) ∧
    (16 ≤ (16#6).toNat ∧ (16#6).toNat < 32 ∧ 16 ≤ (31#6).toNat ∧ (31#6).toNat < 32) ∧
    (32 ≤ (32#6).toNat ∧ (32#6).toNat < 48 ∧ 32 ≤ (47#6).toNat ∧ (47#6).toNat < 48) ∧
    (48 ≤ (48#6).toNat ∧ 48 ≤ (63#6).toNat) := by decide

theorem witness_ChainAddsState :
    (about .chain).enabled .chain = true ∧ ¬(about .chain).blk.toNat + 1 < (about .chain).nb ∧
    (0#56).toNat + 1 < ({ about .chain with msgLen := 56 } : State).nb := by decide

/-- Also of SerLosesNothing. The bytes of the third row of 95_test_vectors.md section 10. -/
theorem witness_SerWritesDigestBytes : (about .ser).enabled .ser = true ∧
    (serBytes iv)[0] = 0x01 ∧ (serBytes iv)[15] = 0x10 ∧
    ∀ j (hj : j < 4), (about .ser).h.get ⟨j, hj⟩ = le32 (serBytes iv)[4 * j] (serBytes iv)[4 * j + 1]
      (serBytes iv)[4 * j + 2] (serBytes iv)[4 * j + 3] := by decide

theorem witness_HexWritesCharacters : aboutHex.enabled .hex = true := by decide

/-- Each clause, at the least length out of the domain and at one byte above the launch memory. -/
theorem witness_StartOutsideDomainRefused :
    (about .rnd).busy = true ∧
    refusalOf (exec .start (about .rnd)) = some .startWhileBusy ∧
    maxMsgBytes < ({ abc with msgLen := 0x2000000000000000 } : State).msgLen.toNat ∧
    refusalOf (exec .start { abc with
      msgLen := 0x2000000000000000, par := ⟨.reject, maxMsgBytes⟩ }) = some .lengthRejected ∧
    refusalOf (exec .start { abc with
      msgLen := 0x2000000000000000, par := ⟨.wrap, maxMsgBytes⟩ }) = some .messageTooLong ∧
    (⟨.wrap, maxMsgBytes⟩ : Params).wf ∧
    refusalOf (exec .start { abc with par := ⟨.refuse, 2⟩ }) = some .messageTooLong := by decide

theorem witness_OutOfTurnRefused :
    (about .rnd).busy = true ∧ (about .rnd).enabled .fetch = false ∧
    (about .rnd).enabled .unpack = false ∧ (about .rnd).enabled .loadw = false ∧
    (about .fetch).enabled .rnd = false ∧ (aboutRound 5 iv 0).i ≠ 4 ∧
    (Instr.rnd2 15).wellFormed = false ∧ (about .rnd).enabled .chain = false ∧
    (about .rnd).enabled .ser = false ∧ finished.enabled .hex = false := by decide

theorem witness_FetchNeedsEveryByte :
    ({ about .fetch with msgLen := 4 } : State).enabled .fetch = true ∧
    (0#56).toNat < ({ about .fetch with msgLen := 4 } : State).nb ∧
    memRead (about .fetch).msg (64 * (0#56).toNat + 3) = none := by decide

/-- Each read's hypotheses at the ends of their ranges, and a space that differs above `n` alone. -/
theorem witness_MessageReadsStayInMessage :
    abc.msgLen.toNat ≤ 3 ∧ 2 < abc.msgLen.toNat ∧ memRead abc.msg 2 = some 0x63 ∧
    3 < ({ abc with msgLen := 4 } : State).msgLen.toNat ∧ memRead abc.msg 3 = none ∧
    (∀ a, a < abc.msgLen.toNat → memRead (memWrite abc.msg 3 0x7a) a = memRead abc.msg a) ∧
    memWrite abc.msg 3 0x7a ≠ abc.msg := by decide

/-- Every instruction has a run, which the statements about what instructions leave unchanged take. -/
theorem witness_InstructionsRun :
    (∃ t, exec .start abc = .next t) ∧ (∃ t, exec .init abc = .next t) ∧
    (∃ t, exec .fetch (about .fetch) = .next t) ∧ (∃ t, exec .unpack (about .unpack) = .next t) ∧
    (∃ t, exec .loadw (about .loadw) = .next t) ∧
    (∃ t, exec (.rnd1 0) (aboutRound 0 iv 0) = .next t) ∧
    (∃ t, exec (.rnd2 16) (aboutRound 16 iv 0) = .next t) ∧
    (∃ t, exec (.rnd3 32) (aboutRound 32 iv 0) = .next t) ∧
    (∃ t, exec (.rnd4 63) (aboutRound 63 iv 0) = .next t) ∧
    (∃ t, exec .chain (about .chain) = .next t) ∧ (∃ t, exec .ser (about .ser) = .next t) ∧
    (∃ t, exec .hex (about .hex) = .next t) := by
  refine ⟨⟨_, rfl⟩, ⟨_, rfl⟩, ⟨(about .fetch).fetched abcBlock, ?_⟩, ⟨_, rfl⟩, ⟨_, rfl⟩, ⟨_, rfl⟩,
    ⟨_, rfl⟩, ⟨_, rfl⟩, ⟨_, rfl⟩, ⟨_, rfl⟩, ⟨_, rfl⟩, ⟨_, rfl⟩⟩
  exact execFetch_eq_next.2 ⟨by decide, by decide, abcBlock, by decide, rfl⟩

/-- Two states that agree on what FETCH reads and differ in all else both run. -/
theorem witness_WritesDependOnReadsOnly :
    (exec .fetch (about .fetch) = .next ((about .fetch).fetched abcBlock)) ∧
    (exec .fetch { about .fetch with h := ⟨0, 0, 0, 0⟩, w := iv } =
      .next (({ about .fetch with h := ⟨0, 0, 0, 0⟩, w := iv } : State).fetched abcBlock)) :=
  ⟨execFetch_eq_next.2 ⟨by decide, by decide, abcBlock, by decide, rfl⟩,
    execFetch_eq_next.2 ⟨by decide, by decide, abcBlock, by decide, rfl⟩⟩

theorem witness_holdsMessage : abc.holdsMessage [0x61, 0x62, 0x63] ∧ State.reset.holdsMessage [] ∧
    [0x61#8, 0x62, 0x63].length ≤ maxMsgBytes ∧ 0 < abc.nb := by
  unfold State.holdsMessage
  decide

theorem witness_EmptyMessageIsOneBlock : State.reset.msgLen = 0 := rfl

/-- A next state of each kind of transition of the life cycle: START, the first FETCH, HEX, reset, and
a step that stays. -/
theorem witness_LifeCycleTransitions :
    abc.Inv ∧ after State.fsm (step { abc with host := [some (.writeCtrl 1)] }) = some .initd ∧
    after State.fsm (step abc.initialised) = some .proc ∧
    after State.fsm (step aboutHex) = some .final ∧
    after State.fsm (step { about .rnd with host := [some (.reset false)] }) = some .idle ∧
    after State.fsm (step (about .ser)) = some .proc := by
  refine ⟨?_, by decide, by decide, by decide, by decide, by decide⟩
  constructor <;> decide

theorem witness_OnlyHexEndsInvocation :
    aboutHex.done = false ∧ step aboutHex = .next finished ∧ finished.done = true :=
  ⟨by decide, rfl, by decide⟩

theorem witness_ResetAbandonsInvocation :
    ({ about .rnd with host := [some (.reset true), none] } : State).host =
      some (.reset true) :: [none] := rfl

theorem witness_HostReadsRegisters :
    ({ finished with host := [some (.read .hex)] } : State).host = some (.read .hex) :: [] ∧
    finished.done = true ∧ (about .rnd).done = false ∧ abc.done = false := by decide

theorem witness_HostWritesAtRestOnly :
    ({ abc with host := [some (.writeMsgLen 9)] } : State).host = some (.writeMsgLen 9) :: [] ∧
    ({ abc with host := [some (.placeByte 3 0x64)] } : State).host =
      some (.placeByte 3 0x64) :: [] ∧
    abc.busy = false ∧ finished.busy = false ∧ (about .rnd).busy = true := by decide

theorem witness_ResultStableWhileDone :
    finished.done = true ∧ step finished = .next finished ∧
    after State.done (step { finished with host := [some (.writeCtrl 1)] }) = some false ∧
    after State.done (step { finished with host := [some (.reset false)] }) = some false :=
  ⟨by decide, rfl, by decide, by decide⟩

theorem witness_StepKeepsInvariants : abc.initialised.Inv ∧ abc.initialised.DataInv ∧
    ∃ t, step abc.initialised = .next t :=
  ⟨witness_Inv_started.1, witness_DataInv_started, abc.initialised.fetched abcBlock,
    (step_of_silent (s := abc.initialised) (.inl rfl)).trans
      ((execFetch_eq_next (s := abc.initialised)).2 ⟨by decide, by decide, abcBlock, by decide, rfl⟩)⟩

/-- "abc" with its one block folded, HEX to come. -/
theorem witness_FinishedResultIsDigest : aboutHex.Inv ∧ aboutHex.DataInv ∧ aboutHex.hostSilent ∧
    aboutHex.nxt = .hex ∧ aboutHex.holdsMessage [0x61, 0x62, 0x63] := by
  have block : readBlock aboutHex 0 = some abcBlock := by decide
  have folded : aboutHex.folded 1 = some abcFinal := by
    simp only [State.folded, block, test_compress_abc]
  refine ⟨?_, ?_, .inl rfl, rfl, by unfold State.holdsMessage; decide⟩
  · constructor <;> decide
  · exact ⟨fun _ => folded, fun _ h => (by cases h), by decide, by decide, by decide⟩

theorem witness_BlockStepsCompress :
    abc.initialised.enabled .fetch = true ∧ abc.initialised.blk.toNat < abc.initialised.nb ∧
    abc.initialised.msgLen.toNat ≤ maxMsgBytes ∧
    readBlock abc.initialised abc.initialised.blk.toNat = some abcBlock ∧
    ∀ a ∈ abc.initialised.host, a = none := by decide

theorem witness_Invocation :
    ({ abc with host := [some (.writeCtrl 1), none, none] } : State).startable ∧
    ({ abc with host := [some (.writeCtrl 1), none, none] } : State).holdsMessage
      [0x61, 0x62, 0x63] ∧
    ({ abc with host := [some (.writeCtrl 1), none, none] } : State).messageReadable ∧
    ({ abc with host := [some (.writeCtrl 1), none, none] } : State).host =
      some (.writeCtrl 1) :: [none, none] ∧
    ∀ a ∈ [none, (none : Option HostAct)], a = none := by
  unfold State.startable State.holdsMessage State.messageReadable
  decide

/-- Two states of one invocation that differ in every register no later step reads. -/
theorem witness_LiveStateDeterminesStep :
    (about .loadw).LiveEq { about .loadw with w := iv, block := abcBlock, dg := serBytes iv, i := 7 } := by
  constructor <;> decide

theorem witness_StartErasesHistory :
    abc.startable ∧ ({ abc with h := iv, w := iv, m := abcWords, i := 9 } : State).busy = false := by
  unfold State.startable
  decide

theorem witness_StepKeepsParametersAndTurns :
    ∃ t, step { abc with host := [none, some (.read .status)] } = .next t := ⟨_, rfl⟩

theorem witness_MessageFixedWhileBusy :
    (about .ser).busy = true ∧ (∃ t, step (about .ser) = .next t) ∧
    ∃ t, step { about .ser with host := [some (.reset false)] } = .next t :=
  ⟨by decide, ⟨_, rfl⟩, _, rfl⟩

theorem witness_CoreNeverFails :
    abc.initialised.Inv ∧ abc.initialised.messageReadable ∧ abc.initialised.hostSilent :=
  ⟨witness_Inv_started.1, by unfold State.messageReadable; decide, .inl rfl⟩

end Sys2Proof.Tests
end

/-! ### The next states of an instruction -/

section
namespace Sys2Proof.Machine

/-- The next states of an instruction, with what `exec` asks of the state before: none but these. -/
inductive ExecNext (s : State) : Instr → State → Prop where
  | start (h : startRefusal s = none) : ExecNext s .start s.initialised
  | init (h : s.busy = false) : ExecNext s .init s.initialised
  | fetch (v : Vector Byte 64) (h : s.enabled .fetch = true) (hb : s.blk.toNat < s.nb)
      (hv : readBlock s s.blk.toNat = some v) : ExecNext s .fetch (s.fetched v)
  | unpack (h : s.enabled .unpack = true) :
      ExecNext s .unpack { s with m := unpackWords s.block, nxt := .loadw }
  | loadw (h : s.enabled .loadw = true) :
      ExecNext s .loadw { s with w := s.h, nxt := .rnd, i := 0 }
  | rnd1 (i : BitVec 6) (h : s.enabled .rnd = true) (hi : s.i = i) (hp : phaseOf i = 0) :
      ExecNext s (.rnd1 i) (s.afterRound (round1 i s.w s.m))
  | rnd2 (i : BitVec 6) (h : s.enabled .rnd = true) (hi : s.i = i) (hp : phaseOf i = 1) :
      ExecNext s (.rnd2 i) (s.afterRound (round2 i s.w s.m))
  | rnd3 (i : BitVec 6) (h : s.enabled .rnd = true) (hi : s.i = i) (hp : phaseOf i = 2) :
      ExecNext s (.rnd3 i) (s.afterRound (round3 i s.w s.m))
  | rnd4 (i : BitVec 6) (h : s.enabled .rnd = true) (hi : s.i = i) (hp : phaseOf i = 3) :
      ExecNext s (.rnd4 i) (s.afterRound (round4 i s.w s.m))
  | chain (h : s.enabled .chain = true) :
      ExecNext s .chain { s with
        h := s.h.add s.w
        blk := s.blk + 1
        nxt := if s.blk.toNat + 1 < s.nb then .fetch else .ser }
  | ser (h : s.enabled .ser = true) : ExecNext s .ser { s with dg := serBytes s.h, nxt := .hex }
  | hex (h : s.enabled .hex = true) :
      ExecNext s .hex { s with hx := hexChars s.dg, fsm := .final, nxt := .none }

theorem execNext_of_exec {i : Instr} {s t : State} (h : exec i s = .next t) : ExecNext s i t := by
  cases i with
  | start => obtain ⟨hr, rfl⟩ := execStart_eq_next.1 h; exact .start hr
  | init => obtain ⟨hb, rfl⟩ := execInit_eq_next.1 h; exact .init hb
  | fetch => obtain ⟨he, hb, v, hv, rfl⟩ := execFetch_eq_next.1 h; exact .fetch v he hb hv
  | unpack => obtain ⟨he, rfl⟩ := issue_eq_next.1 h; exact .unpack he
  | loadw => obtain ⟨he, rfl⟩ := issue_eq_next.1 h; exact .loadw he
  | rnd1 i => obtain ⟨hi, hp, he, rfl⟩ := issueRound_eq_next.1 h; exact .rnd1 i he hi hp
  | rnd2 i => obtain ⟨hi, hp, he, rfl⟩ := issueRound_eq_next.1 h; exact .rnd2 i he hi hp
  | rnd3 i => obtain ⟨hi, hp, he, rfl⟩ := issueRound_eq_next.1 h; exact .rnd3 i he hi hp
  | rnd4 i => obtain ⟨hi, hp, he, rfl⟩ := issueRound_eq_next.1 h; exact .rnd4 i he hi hp
  | chain => obtain ⟨he, rfl⟩ := issue_eq_next.1 h; exact .chain he
  | ser => obtain ⟨he, rfl⟩ := issue_eq_next.1 h; exact .ser he
  | hex => obtain ⟨he, rfl⟩ := issue_eq_next.1 h; exact .hex he

/-! ### The status bits along an invocation -/

theorem State.busy_of_enabled {s : State} {n : Nxt} (h : s.enabled n = true) : s.busy = true :=
  ((s.enabled_iff n).1 h).1

theorem State.done_of_busy {s : State} (h : s.busy = true) : s.done = false := by
  obtain hf | hf := s.busy_iff.1 h <;> simp [State.done, hf, Fsm.isDone]

/-- The layout of STATUS (10_state.md R21). -/
theorem State.status_fields (s : State) :
    s.status.extractLsb' 0 2 = s.fsm.code ∧ s.status.getLsbD 2 = s.busy ∧
      s.status.getLsbD 3 = s.done := by
  unfold State.status State.busy State.done
  cases s.fsm <;> decide

/-- Between START and HEX the core is busy before and after each micro-operation: FETCH enters `PROC`,
every other one leaves `fsm` alone. -/
theorem ExecNext.busy_before_and_after {i : Instr} {s t : State} (h : ExecNext s i t)
    (hstart : i ≠ .start) (hinit : i ≠ .init) (hhex : i ≠ .hex) :
    s.busy = true ∧ t.busy = true := by
  cases h with
  | start | init | hex => contradiction
  | fetch v he => exact ⟨State.busy_of_enabled he, rfl⟩
  | unpack he | loadw he | chain he | ser he =>
    have hs : s.busy = true := State.busy_of_enabled he
    exact ⟨hs, hs⟩
  | rnd1 i he | rnd2 i he | rnd3 i he | rnd4 i he =>
    have hs : s.busy = true := State.busy_of_enabled he
    exact ⟨hs, (State.busy_congr (State.afterRound_fsm s _)).trans hs⟩

/-- Settles O39: START and HEX set `fsm`, and what runs between them starts and ends busy, where BUSY is
1 and DONE is 0. -/
theorem statusFollowsLifeCycle : Obligations.StatusFollowsLifeCycle := by
  refine ⟨fun s => ⟨s.busy_iff, s.done_iff, s.status_fields⟩, rfl, rfl, ?start, ?hex, ?others⟩
  case start =>
    intro s t h
    cases execNext_of_exec h
    exact ⟨rfl, rfl⟩
  case hex =>
    intro s t h
    cases execNext_of_exec h
    exact ⟨rfl, rfl⟩
  case others =>
    intro i s t hstart hinit hhex h
    obtain ⟨hs, ht⟩ := (execNext_of_exec h).busy_before_and_after hstart hinit hhex
    exact ⟨ht.trans hs.symm, (State.done_of_busy ht).trans (State.done_of_busy hs).symm⟩

end Sys2Proof.Machine
end

/-! ### The words the decoder accepts -/

section
namespace Sys2Proof

theorem decodeUop_of_reserved {u : BitVec 9} (hop : opField u ≠ 4) (hi : indexField u ≠ 0) :
    decodeUop u = .error (.reserved u) := by
  rw [decodeUop, if_neg hop, if_pos hi]

theorem exists_decodeUop_of_defined {u : BitVec 9} (h : opField u = 4 ∨ indexField u = 0) :
    ∃ i, decodeUop u = .ok i := by
  by_cases hop : opField u = 4
  · exact ⟨roundInstr (indexField u), by rw [decodeUop, if_pos hop]⟩
  · have hi : indexField u = 0 := h.resolve_left hop
    rw [decodeUop, if_neg hop, if_neg (not_not.2 hi)]
    split_ifs <;> exact ⟨_, rfl⟩

theorem isSome_decodeUop (u : BitVec 9) :
    (decodeUop u).toOption.isSome = (opField u == 4 || indexField u == 0) := by
  by_cases h : opField u = 4 ∨ indexField u = 0
  · obtain ⟨i, hi⟩ := exists_decodeUop_of_defined h
    rw [hi]
    simpa [Except.toOption] using h
  · obtain ⟨hop, hidx⟩ := not_or.1 h
    rw [decodeUop_of_reserved hop hidx, beq_eq_false_iff_ne.2 hop, beq_eq_false_iff_ne.2 hidx]
    rfl

/-! The 512 words are the pairs of an operation and an index. -/

theorem opField_ofNat (n : Nat) : opField (BitVec.ofNat 9 n) = BitVec.ofNat 3 (n / 64) := by
  apply BitVec.eq_of_toNat_eq
  simp only [opField, BitVec.extractLsb'_toNat, BitVec.toNat_ofNat, Nat.reducePow,
    Nat.shiftRight_eq_div_pow]
  omega

theorem indexField_ofNat (n : Nat) : indexField (BitVec.ofNat 9 n) = BitVec.ofNat 6 (n % 64) := by
  apply BitVec.eq_of_toNat_eq
  simp [indexField]

/-- A condition on the quotient by `k` and one on the remainder are met independently of each other. -/
theorem countP_div_mod (p q : Nat → Bool) (k m : Nat) :
    (List.range (k * m)).countP (fun n => p (n / k) && q (n % k)) =
      (List.range m).countP p * (List.range k).countP q := by
  induction m with
  | zero => simp
  | succ m ih =>
    have row : (List.range k).countP (fun r => p ((k * m + r) / k) && q ((k * m + r) % k)) =
        (List.range k).countP fun r => p m && q r := by
      refine List.countP_congr fun r hr => ?_
      have hr : r < k := List.mem_range.1 hr
      rw [Nat.mul_add_div (by omega), Nat.div_eq_of_lt hr, Nat.mul_add_mod, Nat.mod_eq_of_lt hr,
        Nat.add_zero]
    rw [Nat.mul_succ, List.range_add, List.countP_append, ih, List.countP_map, List.range_succ,
      List.countP_append, Nat.add_mul, Function.comp_def, row]
    cases hp : p m <;> simp [hp]

theorem countP_words (p : BitVec 3 → Bool) (q : BitVec 6 → Bool) :
    ((List.range 512).countP fun n =>
      p (opField (BitVec.ofNat 9 n)) && q (indexField (BitVec.ofNat 9 n))) =
    ((List.range 8).countP fun o => p (BitVec.ofNat 3 o)) *
      (List.range 64).countP fun i => q (BitVec.ofNat 6 i) := by
  simp only [opField_ofNat, indexField_ofNat]
  exact countP_div_mod (fun o => p (.ofNat 3 o)) (fun i => q (.ofNat 6 i)) 64 8

/-- Settles O3: of the 8 by 64 words, 7 operations are defined at one index each and one operation at
all 64. -/
theorem reservedWordsRefused : Obligations.ReservedWordsRefused := by
  refine ⟨fun u => ⟨fun ⟨hop, hi⟩ => decodeUop_of_reserved hop hi, exists_decodeUop_of_defined⟩,
    ?others, ?rounds⟩
  case others =>
    have drop_round (a b : Bool) : (!a && (a || b)) = (!a && b) := by cases a <;> rfl
    simp only [isSome_decodeUop, bne, drop_round]
    exact (countP_words (· != 4) (· == 0)).trans (by decide)
  case rounds =>
    have drop_index (a b : Bool) : (a && (a || b)) = (a && true) := by cases a <;> rfl
    simp only [isSome_decodeUop, drop_index]
    exact (countP_words (· == 4) fun _ => true).trans (by decide)

end Sys2Proof
end

/-! ### The word the sequencer issues -/

section
namespace Sys2Proof.Machine

theorem opField_append (op : BitVec 3) (i : BitVec 6) : opField (op ++ i) = op :=
  BitVec.extractLsb'_append_eq_left

theorem Nxt.code_eq_zero_iff (n : Nxt) : n.code = 0 ↔ n = .none := by
  cases n <;> decide

theorem State.issuedWord_of_rests {s : State} (h : s.busy = false) : s.issuedWord = none :=
  if_neg (ne_true_of_eq_false h)

/-- What the sequencer issues (30_encoding.md R70): a busy core's `nxt` as `op`, unless that is `NONE`,
with the round index where `nxt = RND`. -/
theorem State.issuedWord_eq_some {s : State} {u : BitVec 9} :
    s.issuedWord = some u ↔
      s.enabled s.nxt = true ∧ s.nxt ≠ .none ∧
        u = s.nxt.code ++ (if s.nxt = .rnd then s.i else 0) := by
  rw [State.enabled_iff, and_iff_left rfl]
  cases hb : s.busy with
  | false => simp [State.issuedWord_of_rests hb]
  | true =>
    rw [State.issuedWord, if_pos hb]
    cases s.nxt <;> simp [eq_comm]

theorem State.opField_issuedWord {s : State} {u : BitVec 9} (h : s.issuedWord = some u) :
    opField u = s.nxt.code := by
  obtain ⟨-, -, rfl⟩ := State.issuedWord_eq_some.1 h
  exact opField_append _ _

/-- Settles O11: INIT at rest is `State.initialised`; an issued word names a micro-operation in its
operation field, where INIT's word `0x000` has the code of `NONE`. -/
theorem initLoadsVector : Obligations.InitLoadsVector := by
  refine ⟨fun s rests => execInit_eq_next.2 ⟨rests, rfl⟩, fun s issued => ?_⟩
  have named : s.nxt ≠ .none := (State.issuedWord_eq_some.1 issued).2.1
  have code : s.nxt.code = 0 := (State.opField_issuedWord issued).symm.trans (by decide)
  exact named ((Nxt.code_eq_zero_iff _).1 code)

end Sys2Proof.Machine
end

/-! ### The padded message, byte by byte -/

section
namespace Sys2Proof.Machine

/-- The marker lies below the length field, which ends the last block. -/
theorem State.msgLen_lt_lengthField (s : State) : s.msgLen.toNat < 64 * s.nb - 8 := by
  unfold State.nb blockCount
  omega

theorem padByte_marker (s : State) : padByte s s.msgLen.toNat = some 0x80 := by
  rw [padByte, if_neg (Nat.lt_irrefl _), if_pos rfl]

theorem padByte_zero {s : State} {j : Nat} (above : s.msgLen.toNat < j)
    (below : j < 64 * s.nb - 8) : padByte s j = some 0x00 := by
  rw [padByte, if_neg (Nat.lt_asymm above), if_neg (Nat.ne_of_gt above), if_pos below]

theorem padByte_lengthField {s : State} {j : Nat} (h : 64 * s.nb - 8 ≤ j) :
    padByte s j = some (le64Byte (bitLength s.par.lenOverflow s.msgLen.toNat)
      (j - (64 * s.nb - 8))) := by
  have above : s.msgLen.toNat < j := Nat.lt_of_lt_of_le s.msgLen_lt_lengthField h
  rw [padByte, if_neg (Nat.lt_asymm above), if_neg (Nat.ne_of_gt above), if_neg (Nat.not_lt.2 h)]

theorem le64Byte_eq_ofNat (v : BitVec 64) (k : Nat) :
    le64Byte v k = BitVec.ofNat 8 (v.toNat / 2 ^ (8 * k)) := by
  apply BitVec.eq_of_toNat_eq
  rw [le64Byte, BitVec.extractLsb'_toNat, Nat.shiftRight_eq_div_pow, BitVec.toNat_ofNat]

/-- In the documented domain the bit length fits its 64 bits, under each policy of LEN_OVERFLOW. -/
theorem toNat_bitLength (p : LenOverflow) {n : Nat} (h : n ≤ maxMsgBytes) :
    (bitLength p n).toNat = 8 * n := by
  have fits : 8 * n < 2 ^ 64 := by
    unfold maxMsgBytes at h
    omega
  rw [bitLength, if_neg fun overflow => Nat.not_le.2 fits overflow.2, BitVec.toNat_ofNat,
    Nat.mod_eq_of_lt fits]

/-- Settles O13: a lemma for each case of PADBYTE, the last with the bit length of the domain. -/
theorem padByteCases : Obligations.PadByteCases := by
  intro s j domain _
  refine ⟨s.msgLen_lt_lengthField, padByte_message, ?marker, padByte_zero, ?lengthField⟩
  case marker =>
    rintro rfl
    exact padByte_marker s
  case lengthField =>
    intro h
    rw [padByte_lengthField h, le64Byte_eq_ofNat, toNat_bitLength _ domain]

/-! ### The blocks FETCH reads -/

/-- A message byte is the only one that can be missing. -/
theorem isSome_padByte {s : State} {j : Nat}
    (placed : j < s.msgLen.toNat → (memRead s.msg j).isSome = true) :
    (padByte s j).isSome = true := by
  unfold padByte
  split_ifs with message
  · rw [toOption_msgRead message]
    exact placed message
  all_goals rfl

theorem exists_readBlock {s : State} {b : Nat}
    (placed : ∀ k, k < 64 → 64 * b + k < s.msgLen.toNat →
      (memRead s.msg (64 * b + k)).isSome = true) :
    ∃ v, readBlock s b = some v :=
  ⟨_, dif_pos fun k : Fin 64 => isSome_padByte (placed k.val k.isLt)⟩

/-- A last block without message bytes follows a marker that left no room for the length field. -/
theorem State.nb_of_block_after_marker {s : State} (h : s.msgLen.toNat / 64 + 1 < s.nb) :
    56 ≤ s.msgLen.toNat % 64 ∧ s.nb = s.msgLen.toNat / 64 + 2 := by
  unfold State.nb blockCount at *
  omega

/-- Settles O12: FETCH's block is read as its message bytes are placed, and what it holds is PADBYTE
on the side of the marker where the block lies. -/
theorem fetchFillsBlock : Obligations.FetchFillsBlock := by
  intro s enabled inRange placed
  obtain ⟨v, read⟩ := exists_readBlock placed
  have bytes := readBlock_eq_some.1 read
  have message (k : Nat) (hk : k < 64) (below : 64 * s.blk.toNat + k < s.msgLen.toNat) :
      memRead s.msg (64 * s.blk.toNat + k) = some v[k] :=
    (padByte_message below).symm.trans (bytes k hk)
  refine ⟨v, execFetch_eq_next.2 ⟨enabled, inRange, v, read, rfl⟩, bytes, ?before, ?marker, ?after⟩
  case before =>
    intro before k hk
    exact message k hk (by omega)
  case marker =>
    intro here
    refine ⟨?_, fun k hk below => message k hk (by omega)⟩
    have offset : 64 * s.blk.toNat + s.msgLen.toNat % 64 = s.msgLen.toNat := by
      rw [here, Nat.div_add_mod]
    have byte := bytes (s.msgLen.toNat % 64) (Nat.mod_lt _ (by decide))
    rw [offset, padByte_marker] at byte
    exact (Option.some.inj byte).symm
  case after =>
    intro after
    obtain ⟨full, last⟩ := State.nb_of_block_after_marker (after ▸ inRange)
    refine ⟨full, fun k hk => ?_⟩
    have zero : padByte s (64 * s.blk.toNat + k) = some 0x00 :=
      padByte_zero (by omega) (by omega)
    exact Option.some.inj ((bytes k (by omega)).symm.trans zero)

/-! ### The empty message -/

/-- The one block of the empty message (41_padding.md R98). -/
def emptyMessageBlock : Vector Byte 64 := ⟨(0x80 :: List.replicate 63 0x00).toArray, rfl⟩

theorem emptyMessageBlock_succ {k : Nat} (hk : k + 1 < 64) : emptyMessageBlock[k + 1] = 0x00 :=
  List.getElem_replicate (Nat.lt_of_succ_lt_succ hk)

/-- Behind the marker of the empty message every byte is zero, the length field's too. -/
theorem padByte_empty {s : State} (empty : s.msgLen = 0) {j : Nat} (marker : 0 < j) (h : j < 64) :
    padByte s j = some 0x00 := by
  have n : s.msgLen.toNat = 0 := by rw [empty]; rfl
  have nb : s.nb = 1 := by rw [State.nb, n]; rfl
  obtain ⟨-, -, -, zeros, lengthField⟩ := padByteCases s j (by rw [n]; decide) (by omega)
  obtain below | field := Nat.lt_or_ge j (64 * s.nb - 8)
  · exact zeros (by omega) below
  · rw [lengthField field, n, Nat.mul_zero, Nat.zero_div]
    rfl

theorem readBlock_empty {s : State} (empty : s.msgLen = 0) :
    readBlock s 0 = some emptyMessageBlock := by
  refine readBlock_eq_some.2 fun k hk => ?_
  rw [Nat.mul_zero, Nat.zero_add]
  cases k with
  | zero =>
    have marker := padByte_marker s
    rwa [empty] at marker
  | succ k =>
    rw [padByte_empty empty k.succ_pos hk, emptyMessageBlock_succ hk]

/-- Settles O38: with MSG_LEN = 0 the block read is `emptyMessageBlock`, without a look at MSG. -/
theorem emptyMessageIsOneBlock : Obligations.EmptyMessageIsOneBlock :=
  ⟨by decide, rfl, fun _ empty => ⟨emptyMessageBlock, readBlock_empty empty, rfl, by decide⟩⟩

end Sys2Proof.Machine
end

/-! ### The block unpacker and the load of the working registers -/

section
namespace Sys2Proof.Machine

/-- An appended low part is the low digit of an unsigned number, whatever the bits of either part. -/
theorem toNat_append_eq_add {m n : Nat} (high : BitVec m) (low : BitVec n) :
    (high ++ low).toNat = low.toNat + 2 ^ n * high.toNat := by
  rw [BitVec.toNat_append, ← Nat.shiftLeft_add_eq_or_of_lt low.isLt, Nat.shiftLeft_eq, Nat.mul_comm,
    Nat.add_comm]

theorem toNat_le32 (b0 b1 b2 b3 : Byte) :
    (le32 b0 b1 b2 b3).toNat =
      b0.toNat + 2 ^ 8 * b1.toNat + 2 ^ 16 * b2.toNat + 2 ^ 24 * b3.toNat := by
  have digits : (le32 b0 b1 b2 b3).toNat =
      b0.toNat + 2 ^ 8 * (b1.toNat + 2 ^ 8 * (b2.toNat + 2 ^ 8 * b3.toNat)) := by
    unfold le32
    rw [toNat_append_eq_add, toNat_append_eq_add, toNat_append_eq_add]
  omega

theorem getElem_unpackWords (v : Vector Byte 64) {k : Nat} (hk : k < 16) :
    (unpackWords v)[k] = le32 v[4 * k] v[4 * k + 1] v[4 * k + 2] v[4 * k + 3] :=
  Vector.getElem_ofFn hk

/-- Settles O14: each word is LE32 of its four bytes, and LE32 is their number in base 2^8. -/
theorem unpackMakesWords : Obligations.UnpackMakesWords := by
  intro s enabled
  refine ⟨unpackWords s.block, issue_of_enabled enabled, fun k hk => ?_⟩
  rw [getElem_unpackWords s.block hk, toNat_le32]

/-- Settles O16: a core that runs LOADW is busy, where the data invariant says what `HA..HD` hold; no
block folded is the initialisation vector. -/
theorem loadwCopiesState : Obligations.LoadwCopiesState := by
  intro s enabled
  have busy : s.busy = true := State.busy_of_enabled enabled
  refine ⟨issue_of_enabled enabled, fun inv => inv.state busy, fun inv first => ?_⟩
  have folded : s.folded s.blk.toNat = some s.h := inv.state busy
  rw [first] at folded
  exact (Option.some.inj folded).symm

end Sys2Proof.Machine
end

/-! ### The rounds and the feed-forward addition -/

section
namespace Sys2Proof.Machine

/-! What a round reads by its index: the phase, the message word and the shift amount. -/

theorem toNat_phaseOf (i : BitVec 6) : (phaseOf i).toNat = i.toNat / 16 := by
  rw [phaseOf, BitVec.extractLsb'_toNat, Nat.shiftRight_eq_div_pow]
  omega

theorem phaseOf_eq_iff {i : BitVec 6} {ph : BitVec 2} : phaseOf i = ph ↔ i.toNat / 16 = ph.toNat := by
  rw [← toNat_phaseOf, BitVec.toNat_inj]

theorem val_g1 {i : BitVec 6} (h : i.toNat < 16) : (g1 i).val = i.toNat :=
  Nat.mod_eq_of_lt h

/-- One of a phase's four shift amounts, by the step `i mod 4` within it (10_state.md R25). -/
def stepShift (s0 s1 s2 s3 : BitVec 5) (i : BitVec 6) : BitVec 5 :=
  if i.toNat % 4 = 0 then s0 else if i.toNat % 4 = 1 then s1 else if i.toNat % 4 = 2 then s2 else s3

/-- The shift amounts as R123 to R126 list them for each phase. -/
def phaseShift (ph : BitVec 2) (i : BitVec 6) : BitVec 5 :=
  if ph = 0 then stepShift 7 12 17 22 i
  else if ph = 1 then stepShift 5 9 14 20 i
  else if ph = 2 then stepShift 4 11 16 23 i
  else stepShift 6 10 15 21 i

theorem romS_eq_phaseShift (i : BitVec 6) : romS i = phaseShift (phaseOf i) i := by
  revert i; decide

/-! The round common to the phases (R122). -/

theorem State.afterRound_of_ne {s : State} (notLast : s.i ≠ 63) (q : Quad) :
    s.afterRound q = { s with w := q, i := s.i + 1 } :=
  if_neg notLast

theorem State.afterRound_of_eq {s : State} (last : s.i = 63) (q : Quad) :
    s.afterRound q = { s with w := q, nxt := .chain } :=
  if_pos last

/-- R122, for the mixing output `f` and the message word `x` of any phase. -/
theorem issueRound_of_enabled {s : State} {ph : BitVec 2} (enabled : s.enabled .rnd = true)
    (phase : phaseOf s.i = ph) (f x : Word) :
    issueRound s ph s.i (roundWith f x s.i s.w) = .next (s.afterRound
      ⟨s.w.d, s.w.b + rotl32 (f + s.w.a + romK s.i + x) (phaseShift ph s.i), s.w.b, s.w.c⟩) := by
  subst phase
  rw [← romS_eq_phaseShift]
  exact issueRound_eq_next.2 ⟨rfl, rfl, enabled, rfl⟩

/-- The last round lies in phase 4, so a round of another phase goes on to the next one. -/
theorem issueRound_of_phase_ne_last {s : State} {ph : BitVec 2} (enabled : s.enabled .rnd = true)
    (phase : phaseOf s.i = ph) (inner : ph ≠ 3) (f x : Word) :
    issueRound s ph s.i (roundWith f x s.i s.w) = .next { s with
      w := ⟨s.w.d, s.w.b + rotl32 (f + s.w.a + romK s.i + x) (phaseShift ph s.i), s.w.b, s.w.c⟩
      i := s.i + 1 } := by
  have notLast : s.i ≠ 63 := by
    intro last
    rw [last] at phase
    exact inner (phase.symm.trans (by decide))
  rw [issueRound_of_enabled enabled phase, State.afterRound_of_ne notLast]

/-! The mixing functions at the ends. -/

theorem mix1_zero (c d : Word) : mix1 0 c d = d := by
  rw [mix1, BitVec.ofNat_eq_ofNat, BitVec.zero_and, BitVec.zero_or, BitVec.not_zero,
    BitVec.allOnes_and]

theorem mix1_allOnes (c d : Word) : mix1 (.allOnes 32) c d = c := by
  rw [mix1, BitVec.allOnes_and, BitVec.not_allOnes, BitVec.zero_and, BitVec.or_zero]

theorem mix2_eq_mix1 (b c d : Word) : mix2 b c d = mix1 d b c := rfl

theorem mix3_swap_left (b c d : Word) : mix3 b c d = mix3 c b d := by
  rw [mix3, BitVec.xor_comm b c, mix3]

theorem mix3_swap_right (b c d : Word) : mix3 b c d = mix3 b d c := by
  rw [mix3, BitVec.xor_assoc, BitVec.xor_comm c d, ← BitVec.xor_assoc, mix3]

theorem mix3_self (b d : Word) : mix3 b b d = d := by
  rw [mix3, BitVec.xor_self, BitVec.zero_xor]

theorem getLsbD_mix3 (b c d : Word) (k : Nat) :
    (mix3 b c d).getLsbD k = ((b.getLsbD k).xor (c.getLsbD k)).xor (d.getLsbD k) := by
  rw [mix3, BitVec.getLsbD_xor, BitVec.getLsbD_xor]

theorem mix4_zero (b c : Word) : mix4 b c 0 = ~~~c := by
  rw [mix4, BitVec.ofNat_eq_ofNat, BitVec.not_zero, BitVec.or_allOnes, BitVec.xor_allOnes]

theorem mix4_allOnes (b c : Word) : mix4 b c (.allOnes 32) = c ^^^ b := by
  rw [mix4, BitVec.not_allOnes, BitVec.or_zero]

/-- Settles O17: a round of phase 1, whose word index `i` lies below 16 as it stands. -/
theorem rnd1RunsRound : Obligations.Rnd1RunsRound := by
  refine ⟨fun s i high enabled named => ?_, fun b c d => ⟨rfl, mix1_zero c d, mix1_allOnes c d⟩⟩
  subst named
  have phase : phaseOf s.i = 0 := phaseOf_eq_iff.2 (Nat.div_eq_of_lt high)
  have word : s.m[g1 s.i] = s.m[s.i.toNat] := getElem_congr_idx (c := s.m) (val_g1 high)
  rw [← word]
  exact issueRound_of_phase_ne_last enabled phase (by decide) _ _

/-- Settles O18: a round of phase 2; its mixing function is that of phase 1 with `D` as the selector. -/
theorem rnd2RunsRound : Obligations.Rnd2RunsRound := by
  refine ⟨fun s i low high enabled named => ?_, fun b c d => ⟨rfl, ?zero, ?ones⟩⟩
  case zero => exact (mix2_eq_mix1 b c _).trans (mix1_zero b c)
  case ones => exact (mix2_eq_mix1 b c _).trans (mix1_allOnes b c)
  subst named
  have phase : phaseOf s.i = 1 := phaseOf_eq_iff.2 (Nat.div_eq_of_lt_le low high)
  exact issueRound_of_phase_ne_last enabled phase (by decide) _ _

/-- Settles O19: a round of phase 3. -/
theorem rnd3RunsRound : Obligations.Rnd3RunsRound := by
  refine ⟨fun s i low high enabled named => ?_, fun b c d =>
    ⟨rfl, mix3_swap_left b c d, mix3_swap_right b c d, mix3_self b d, getLsbD_mix3 b c d⟩⟩
  subst named
  have phase : phaseOf s.i = 2 := phaseOf_eq_iff.2 (Nat.div_eq_of_lt_le low high)
  exact issueRound_of_phase_ne_last enabled phase (by decide) _ _

/-- Settles O20: a round of phase 4, after which the sequencer leaves the rounds where `i = 63`. -/
theorem rnd4RunsRound : Obligations.Rnd4RunsRound := by
  refine ⟨fun s i low enabled named => ?_, fun b c d =>
    ⟨rfl, mix4_zero b c, mix4_allOnes b c, BitVec.isLt _⟩⟩
  subst named
  have phase : phaseOf s.i = 3 := phaseOf_eq_iff.2 (Nat.div_eq_of_lt_le low s.i.isLt)
  have rnd : s.nxt = .rnd := ((s.enabled_iff .rnd).1 enabled).2
  refine (issueRound_of_enabled enabled phase _ _).trans (congrArg Host.Outcome.next ?_)
  by_cases last : s.i = 63
  · rw [State.afterRound_of_eq last, if_pos last, if_pos last]
    rfl
  · rw [State.afterRound_of_ne last, if_neg last, if_neg last, ← rnd]
    rfl

/-- Settles O21: an enabled CHAIN leads to the state it issues, whose `NB` is that of R62. -/
theorem chainAddsState : Obligations.ChainAddsState :=
  fun _ enabled => issue_of_enabled enabled

end Sys2Proof.Machine
end

/-! ### The finalization serializer -/

section
namespace Sys2Proof.Machine

/-! SER and the digest bytes. -/

theorem toNat_le32Byte (w : Word) (k : Nat) :
    (le32Byte w k).toNat = w.toNat / 2 ^ (8 * k) % 256 := by
  rw [le32Byte, BitVec.extractLsb'_toNat, Nat.shiftRight_eq_div_pow]

/-- A byte of a word made by LE32 is the byte it was made of. -/
theorem le32Byte_le32 (b : Fin 4 → Byte) (k : Fin 4) :
    le32Byte (le32 (b 0) (b 1) (b 2) (b 3)) k = b k := by
  apply BitVec.eq_of_toNat_eq
  rw [toNat_le32Byte, toNat_le32]
  match k with
  | 0 | 1 | 2 | 3 => norm_num; omega

theorem getElem_serBytes (q : Quad) {j k : Nat} (hj : j < 4) (hk : k < 4) :
    (serBytes q)[4 * j + k] = le32Byte (q.get ⟨j, hj⟩) k := by
  have word : (4 * j + k) / 4 = j := by omega
  have byte : (4 * j + k) % 4 = k := by omega
  simp only [serBytes, Vector.getElem_ofFn, word, byte]

/-- SER inverts UNPACK's making of words (R145 (c)). -/
theorem serBytes_eq_of_le32 {q : Quad} {x : Vector Byte 16}
    (made : ∀ j (hj : j < 4),
      q.get ⟨j, hj⟩ = le32 x[4 * j] x[4 * j + 1] x[4 * j + 2] x[4 * j + 3]) :
    serBytes q = x := by
  have bytes (j k : Nat) (hj : j < 4) (hk : k < 4) : (serBytes q)[4 * j + k] = x[4 * j + k] := by
    rw [getElem_serBytes q hj hk, made j hj]
    exact le32Byte_le32 (fun i => x[4 * j + i.val]) ⟨k, hk⟩
  ext1 n hn
  have place : 4 * (n / 4) + n % 4 = n := Nat.div_add_mod n 4
  have at_n := bytes (n / 4) (n % 4) (by omega) (by omega)
  simpa only [place] using at_n

/-- Settles O22: the bytes of each word are its digits in base 2^8, which LE32 puts together. -/
theorem serWritesDigestBytes : Obligations.SerWritesDigestBytes := by
  intro s enabled
  refine ⟨serBytes s.h, issue_of_enabled enabled, fun j hj k hk => ?_, fun _ => serBytes_eq_of_le32⟩
  rw [getElem_serBytes s.h hj hk, toNat_le32Byte]

/-! HEX and the characters. -/

theorem toNat_hexChar (v : BitVec 4) :
    (hexChar v).toNat = if v.toNat ≤ 9 then 0x30 + v.toNat else 0x61 + (v.toNat - 10) := by
  revert v; decide

theorem toNat_highNibble (b : Byte) : (b.extractLsb' 4 4).toNat = b.toNat / 16 := by
  rw [BitVec.extractLsb'_toNat, Nat.shiftRight_eq_div_pow]
  omega

theorem toNat_lowNibble (b : Byte) : (b.extractLsb' 0 4).toNat = b.toNat % 16 := by
  rw [BitVec.extractLsb'_toNat, Nat.shiftRight_zero]

theorem getElem_hexChars_even (v : Vector Byte 16) {m : Nat} (hm : m < 16) :
    (hexChars v)[2 * m] = hexChar (v[m].extractLsb' 4 4) := by
  have even : 2 * m % 2 = 0 := by omega
  have byte : 2 * m / 2 = m := by omega
  simp only [hexChars, Vector.getElem_ofFn, even, byte, if_true]

theorem getElem_hexChars_odd (v : Vector Byte 16) {m : Nat} (hm : m < 16) :
    (hexChars v)[2 * m + 1] = hexChar (v[m].extractLsb' 0 4) := by
  have odd : (2 * m + 1) % 2 = 1 := by omega
  have byte : (2 * m + 1) / 2 = m := by omega
  simp only [hexChars, Vector.getElem_ofFn, odd, byte, one_ne_zero, if_false]

/-- Settles O23: the two characters of a digest byte are those of its nibbles, the high one at the even
place. -/
theorem hexWritesCharacters : Obligations.HexWritesCharacters := by
  intro s enabled
  refine ⟨hexChars s.dg, _, issue_of_enabled enabled, rfl, rfl, rfl, fun m hm => ⟨?high, ?low⟩⟩
  case high => rw [getElem_hexChars_even s.dg hm, toNat_hexChar, toNat_highNibble]
  case low => rw [getElem_hexChars_odd s.dg hm, toNat_hexChar, toNat_lowNibble]

end Sys2Proof.Machine
end

/-! ### The bytes of an instruction -/

section
namespace Sys2Proof
open Sys2Proof.Machine

/-! A word and its two bytes. -/

theorem high_append_low {m n : Nat} (u : BitVec (m + n)) :
    u.extractLsb' n m ++ u.extractLsb' 0 n = u :=
  (BitVec.extractLsb'_append_extractLsb'_eq_extractLsb' (Nat.zero_add n).symm).trans
    BitVec.extractLsb'_eq_self

theorem word_of_bytes (u : BitVec 9) : u.extractLsb' 8 1 ++ u.extractLsb' 0 8 = u :=
  high_append_low (m := 1) (n := 8) u

theorem word_of_fields (u : BitVec 9) : opField u ++ indexField u = u :=
  high_append_low (m := 3) (n := 6) u

theorem extractLsb'_setWidth_bit (high : BitVec 1) :
    (high.setWidth 8).extractLsb' 1 7 = 0 ∧ (high.setWidth 8).extractLsb' 0 1 = high := by
  revert high; decide

theorem setWidth_bit_of_upper_zero {high : Byte} (zero : high.extractLsb' 1 7 = 0) :
    (high.extractLsb' 0 1).setWidth 8 = high := by
  revert high; decide

/-- The word's two bytes are read as that word (log 15). -/
theorem decode_wordBytes (u : BitVec 9) : decode (wordBytes u) = decodeUop u := by
  obtain ⟨upper, bit⟩ := extractLsb'_setWidth_bit (u.extractLsb' 8 1)
  rw [wordBytes, decode, if_pos upper, bit, word_of_bytes]

theorem wordBytes_append {low high : Byte} (zero : high.extractLsb' 1 7 = 0) :
    wordBytes (high.extractLsb' 0 1 ++ low) = [low, high] := by
  rw [wordBytes, BitVec.extractLsb'_append_eq_right, BitVec.extractLsb'_append_eq_left,
    setWidth_bit_of_upper_zero zero]

/-! The round instruction of an index is its phase's (R65, R70). -/

theorem roundInstr_eq (i : BitVec 6) :
    roundInstr i = if phaseOf i = 0 then .rnd1 i else if phaseOf i = 1 then .rnd2 i
      else if phaseOf i = 2 then .rnd3 i else .rnd4 i := rfl

theorem wellFormed_roundInstr (i : BitVec 6) : (roundInstr i).wellFormed = true := by
  revert i; decide

theorem uopWord_roundInstr (i : BitVec 6) : uopWord (roundInstr i) = some (4#3 ++ i) := by
  rw [roundInstr_eq]
  split_ifs <;> rfl

/-- A well-formed round is the round instruction of its index. -/
theorem roundInstr_of_wellFormed {i : BitVec 6} {r : Instr}
    (round : r ∈ [.rnd1 i, .rnd2 i, .rnd3 i, .rnd4 i]) (formed : r.wellFormed = true) :
    roundInstr i = r := by
  revert i r; decide

theorem decode_encode_round {i : BitVec 6} {r : Instr}
    (round : r ∈ [.rnd1 i, .rnd2 i, .rnd3 i, .rnd4 i]) (formed : r.wellFormed = true) :
    decode (encode r) = .ok r := by
  have named : roundInstr i = r := roundInstr_of_wellFormed round formed
  have word : uopWord r = some (4#3 ++ i) := named ▸ uopWord_roundInstr i
  rw [encode, word]
  exact (decode_wordBytes _).trans ((decodeUop_round i).trans (congrArg _ named))

/-- Settles O1: a word's bytes are read as that word, and a well-formed round is the one its index
names. -/
theorem decodeInvertsEncode : Obligations.DecodeInvertsEncode := by
  intro r formed
  cases r with
  | start | init | fetch | unpack | loadw | chain | ser | hex => decide
  | rnd1 i | rnd2 i | rnd3 i | rnd4 i => exact decode_encode_round (i := i) (by simp) formed

/-! What the decoder accepts. -/

/-- The seven words of the operations without an index are the encodings of what they decode to. -/
theorem decodeUop_of_op {op : BitVec 3} (other : op ≠ 4) :
    ∃ r ∈ [Instr.init, .fetch, .unpack, .loadw, .chain, .ser, .hex],
      decodeUop (op ++ 0#6) = .ok r ∧ uopWord r = some (op ++ 0#6) ∧ r.wellFormed = true := by
  revert op; decide

/-- A word that is not reserved is the encoding of the well-formed micro-operation it decodes to. -/
theorem decodeUop_of_defined {u : BitVec 9} (defined : opField u = 4 ∨ indexField u = 0) :
    ∃ r, decodeUop u = .ok r ∧ uopWord r = some u ∧ r.wellFormed = true := by
  rw [← word_of_fields u]
  by_cases round : opField u = 4
  · rw [round]
    exact ⟨_, decodeUop_round _, uopWord_roundInstr _, wellFormed_roundInstr _⟩
  · rw [defined.resolve_left round]
    obtain ⟨r, -, decoded⟩ := decodeUop_of_op round
    exact ⟨r, decoded⟩

/-- The word an instruction was decoded from is its own. -/
theorem uopWord_of_decodeUop {u : BitVec 9} {r : Instr} (decoded : decodeUop u = .ok r) :
    uopWord r = some u ∧ r.wellFormed = true := by
  by_cases defined : opField u = 4 ∨ indexField u = 0
  · obtain ⟨r', decoded', word⟩ := decodeUop_of_defined defined
    cases decoded.symm.trans decoded'
    exact word
  · obtain ⟨op, index⟩ := not_or.1 defined
    cases decoded.symm.trans (decodeUop_of_reserved op index)

/-- Two bytes that decode to an instruction are its encoding. -/
theorem encode_of_decode_word {low high : Byte} {r : Instr} (decoded : decode [low, high] = .ok r) :
    uopWord r ≠ none ∧ encode r = [low, high] ∧ r.wellFormed = true := by
  rw [decode] at decoded
  split_ifs at decoded with upper
  obtain ⟨word, formed⟩ := uopWord_of_decodeUop decoded
  rw [encode, word]
  exact ⟨Option.some_ne_none _, wordBytes_append upper, formed⟩

/-- One byte that decodes to an instruction is START's, by its bit 0 (log 15). -/
theorem start_of_decode_byte {b : Byte} {r : Instr} (decoded : decode [b] = .ok r) :
    r = .start ∧ b.getLsbD 0 = true := by
  rw [decode, decodeCtrl] at decoded
  split_ifs at decoded with bit
  cases decoded
  refine ⟨rfl, ?_⟩
  revert b; decide

/-- Settles O2: by the number of bytes, one for START and two for a micro-operation. -/
theorem decodedBytesEncodeBack : Obligations.DecodedBytesEncodeBack := by
  intro bs r decoded
  match bs with
  | [b] =>
    obtain ⟨rfl, bit⟩ := start_of_decode_byte decoded
    exact ⟨rfl, fun other => absurd rfl other, fun _ => ⟨b, rfl, bit⟩⟩
  | [low, high] =>
    obtain ⟨word, bytes, formed⟩ := encode_of_decode_word decoded
    refine ⟨formed, fun _ => bytes, ?_⟩
    rintro rfl
    exact absurd rfl word
  | [] | _ :: _ :: _ :: _ => cases decoded

/-- Settles O4: each word by evaluation of the decoder. -/
theorem specWordsDecode : Obligations.SpecWordsDecode := by
  unfold Obligations.SpecWordsDecode
  decide

end Sys2Proof
end

/-! ### The core's step, by the micro-operation it runs -/

section
namespace Sys2Proof.Machine

/-- What the core's step runs where the sequencer names `n` (10_state.md R18). -/
def microStep (s : State) (n : Nxt) : Host.Outcome State Fault Refusal :=
  match n with
  | .none => .next s
  | .fetch => execFetch s
  | .unpack => execUnpack s
  | .loadw => execLoadw s
  | .rnd => issueRound s (phaseOf s.i) s.i (round s.i s.w s.m)
  | .chain => execChain s
  | .ser => execSer s
  | .hex => execHex s

theorem coreStep_of_rests {s : State} (rests : s.busy = false) : coreStep s = .next s := by
  rw [coreStep_eq, rests]
  rfl

theorem coreStep_of_enabled {s : State} {n : Nxt} (enabled : s.enabled n = true) :
    coreStep s = microStep s n := by
  obtain ⟨busy, rfl⟩ := (s.enabled_iff n).1 enabled
  rw [coreStep_eq, if_pos busy]
  rfl

/-- A core at rest waits, and a busy core runs the micro-operation the sequencer names. -/
theorem rests_or_enabled (s : State) : s.busy = false ∨ s.enabled s.nxt = true := by
  simp [State.enabled]

/-- The next states of the core's step are those of `CoreNext`, each of them. -/
theorem coreStep_eq_next {s t : State} : coreStep s = .next t ↔ CoreNext s t := by
  refine ⟨coreNext_of_coreStep, fun next => ?_⟩
  cases next with
  | rests idle =>
    obtain rests | enabled := rests_or_enabled s
    · exact coreStep_of_rests rests
    · rw [coreStep_of_enabled enabled]
      obtain rests | named := idle
      · exact absurd (State.busy_of_enabled enabled) (ne_true_of_eq_false rests)
      · rw [named]
        rfl
  | fetch v enabled inRange read =>
    exact (coreStep_of_enabled enabled).trans (execFetch_eq_next.2 ⟨enabled, inRange, v, read, rfl⟩)
  | rnd enabled =>
    exact (coreStep_of_enabled enabled).trans (issueRound_eq_next.2 ⟨rfl, rfl, enabled, rfl⟩)
  | unpack enabled | loadw enabled | chain enabled | ser enabled | hex enabled =>
    exact (coreStep_of_enabled enabled).trans (issue_of_enabled enabled)

/-! ### The step of core and host -/

/-- Where a step answers a next state, it is one of the core's or one of the host's move. -/
theorem next_cases_of_step {s t : State} (h : step s = .next t) :
    (s.hostSilent ∧ CoreNext s.turnTaken t) ∨
      ∃ a, s.host.head? = some (some a) ∧ HostNext s.turnTaken a t := by
  obtain ⟨silent, core⟩ | ⟨a, move, host⟩ := step_cases s
  · exact .inl ⟨silent, coreNext_of_coreStep (core ▸ h)⟩
  · exact .inr ⟨a, move, hostNext_of_hostMove (host ▸ h)⟩

theorem step_of_head {s : State} {a : HostAct} (move : s.host.head? = some (some a)) :
    step s = hostMove a s.turnTaken := by
  obtain ⟨silent, -⟩ | ⟨b, move', host⟩ := step_cases s
  · simp [State.hostSilent, move] at silent
  · cases move.symm.trans move'
    exact host

theorem step_of_coreNext {s t : State} (silent : s.hostSilent) (next : CoreNext s.turnTaken t) :
    step s = .next t :=
  (step_of_silent silent).trans (coreStep_eq_next.2 next)

/-- Settles O6: taking the host's entry off its list changes nothing the sequencer's word is made of. -/
theorem stepRunsIssuedInstruction : Obligations.StepRunsIssuedInstruction := by
  intro s u r silent issued decoded
  rw [decode_wordBytes] at decoded
  have issued : s.turnTaken.issuedWord = some u := issued
  rw [step_of_silent silent, coreStep, issued]
  simp only [decoded]

theorem indexField_append (op : BitVec 3) (i : BitVec 6) : indexField (op ++ i) = i :=
  BitVec.extractLsb'_append_eq_right

/-- Settles O7: the word is `nxt`'s code and the index of a round or 0, which no reserved word is. -/
theorem sequencerIssuesNamedWord : Obligations.SequencerIssuesNamedWord := by
  refine fun s => ⟨State.issuedWord_of_rests, fun inv busy => ?_, fun u issued => ?_⟩
  · exact ⟨_, State.issuedWord_eq_some.2
      ⟨(s.enabled_iff _).2 ⟨busy, rfl⟩, inv.working busy, rfl⟩⟩
  · obtain ⟨enabled, named, rfl⟩ := State.issuedWord_eq_some.1 issued
    refine ⟨opField_append _ _, indexField_append _ _, enabled, named, ?_⟩
    apply exists_decodeUop_of_defined
    rw [opField_append, indexField_append]
    by_cases round : s.nxt = .rnd
    · exact .inl (by rw [round]; rfl)
    · exact .inr (if_neg round)

/-- Settles O8: the host's move is START's meaning, or nothing. -/
theorem ctrlWriteIsStart : Obligations.CtrlWriteIsStart :=
  fun _ _ => ⟨step_of_move, step_of_move⟩

/-- Settles O9: the core's step at rest. -/
theorem restingCoreWaits : Obligations.RestingCoreWaits :=
  fun _ silent rests => (step_of_silent silent).trans (coreStep_of_rests rests)

/-- Settles O55: no core step and no move of the host writes the parameters or the host's list. -/
theorem stepKeepsParametersAndTurns : Obligations.StepKeepsParametersAndTurns := by
  intro s t h
  obtain ⟨-, next⟩ | ⟨a, -, next⟩ := next_cases_of_step h
  · cases next with
    | rnd => exact ⟨State.afterRound_par _ _, State.afterRound_host _ _⟩
    | rests | fetch | unpack | loadw | chain | ser | hex => exact ⟨rfl, rfl⟩
  · cases next <;> exact ⟨rfl, rfl⟩

/-! ### Where an instruction stops -/

theorem issue_of_disabled {s : State} {n : Nxt} (disabled : s.enabled n = false) (t : State) :
    issue s n t = .refused .notEnabled :=
  if_neg (ne_true_of_eq_false disabled)

/-- A round is refused out of turn, at another index than the sequencer's, and out of its phase. -/
theorem issueRound_of_disabled {s : State} {ph : BitVec 2} {i : BitVec 6}
    (disabled : s.enabled .rnd = false ∨ s.i ≠ i ∨ phaseOf i ≠ ph) (q : Quad) :
    issueRound s ph i q = .refused .notEnabled := by
  rw [issueRound]
  split_ifs with named
  · exact issue_of_disabled (by simpa [named] using disabled) _
  · rfl

theorem execFetch_of_disabled {s : State} (disabled : s.enabled .fetch = false) :
    execFetch s = .refused .notEnabled :=
  if_neg (ne_true_of_eq_false disabled)

theorem execFetch_of_unreadable {s : State} (enabled : s.enabled .fetch = true)
    (inRange : s.blk.toNat < s.nb) (unreadable : readBlock s s.blk.toNat = none) :
    execFetch s = .refused .messageUnreadable := by
  rw [execFetch, if_pos enabled, if_neg (Nat.not_le.2 inRange), unreadable]

theorem execStart_of_startRefusal {s : State} {r : Refusal} (refusal : startRefusal s = some r) :
    execStart s = .refused r := by
  rw [execStart, refusal]

theorem startRefusal_of_busy {s : State} (busy : s.busy = true) :
    startRefusal s = some .startWhileBusy :=
  if_pos busy

/-- R102: the policy's refusal comes before the launch memory's. -/
theorem startRefusal_of_overflow {s : State} (rests : s.busy = false)
    (long : maxMsgBytes < s.msgLen.toNat) :
    startRefusal s = (overflowRefusal s.par.lenOverflow).or (spaceRefusal s) := by
  rw [startRefusal, if_neg (ne_true_of_eq_false rests), if_pos long]
  cases overflowRefusal s.par.lenOverflow <;> rfl

theorem startRefusal_of_domain {s : State} (rests : s.busy = false)
    (domain : s.msgLen.toNat ≤ maxMsgBytes) : startRefusal s = spaceRefusal s := by
  rw [startRefusal, if_neg (ne_true_of_eq_false rests), if_neg (Nat.not_lt.2 domain)]

theorem spaceRefusal_of_lt {s : State} (short : s.par.msgSpaceBytes < s.msgLen.toNat) :
    spaceRefusal s = some .messageTooLong :=
  if_pos short

/-- Settles O24: START's refusals in the order of R83's preconditions. -/
theorem startOutsideDomainRefused : Obligations.StartOutsideDomainRefused := by
  refine fun s => ⟨fun busy => ?busy, fun rests long policy => ?refuse,
    fun rests long policy => ?reject, fun rests long small => ?space, fun rests domain short => ?short⟩
  case busy => exact execStart_of_startRefusal (startRefusal_of_busy busy)
  case refuse | reject =>
    apply execStart_of_startRefusal
    rw [startRefusal_of_overflow rests long, policy]
    rfl
  case space =>
    have refused : ∃ r, startRefusal s = some r := by
      rw [startRefusal_of_overflow rests long, spaceRefusal_of_lt (Nat.lt_of_le_of_lt small long)]
      cases overflowRefusal s.par.lenOverflow <;> exact ⟨_, rfl⟩
    obtain ⟨r, refused⟩ := refused
    exact ⟨r, execStart_of_startRefusal refused⟩
  case short =>
    apply execStart_of_startRefusal
    rw [startRefusal_of_domain rests domain, spaceRefusal_of_lt short]

/-- A round whose index lies out of its phase is refused, and there is no other ill-formed term. -/
theorem exec_of_illFormed {r : Instr} (illFormed : r.wellFormed = false) (s : State) :
    exec r s = .refused .notEnabled := by
  cases r with
  | start | init | fetch | unpack | loadw | chain | ser | hex => cases illFormed
  | rnd1 i | rnd2 i | rnd3 i | rnd4 i =>
    refine issueRound_of_disabled (.inr (.inr fun phase => ?_)) _
    have phase := phaseOf_eq_iff.1 phase
    simp [Instr.wellFormed] at illFormed phase
    omega

/-- Settles O25: each micro-operation is issued by `issue`, a round by `issueRound`, or asks for the same
itself. -/
theorem outOfTurnRefused : Obligations.OutOfTurnRefused := by
  refine fun s => ⟨fun busy => if_pos busy, execFetch_of_disabled, fun disabled => ?_,
    fun disabled => ?_, fun i disabled => ?_, fun r illFormed => exec_of_illFormed illFormed s,
    fun disabled => ?_, fun disabled => ?_, fun disabled => ?_⟩
  case refine_3 =>
    have refused (ph : BitVec 2) (q : Quad) : issueRound s ph i q = .refused .notEnabled :=
      issueRound_of_disabled (disabled.imp_right .inl) q
    exact ⟨refused _ _, refused _ _, refused _ _, refused _ _⟩
  all_goals exact issue_of_disabled disabled _

/-- Settles O27: a block without one of its message bytes is not read. -/
theorem fetchNeedsEveryByte : Obligations.FetchNeedsEveryByte := by
  intro s k enabled inRange inBlock inMessage missing
  refine execFetch_of_unreadable enabled inRange (Option.eq_none_iff_forall_ne_some.2 fun v read => ?_)
  have byte := readBlock_eq_some.1 read k inBlock
  rw [padByte_message inMessage, missing] at byte
  cases byte

/-! Why a step stops. -/

theorem refusal_of_execFetch {s : State} {r : Refusal} (enabled : s.enabled .fetch = true)
    (refused : execFetch s = .refused r) : r = .blockOutOfRange ∨ r = .messageUnreadable := by
  rw [execFetch, if_pos enabled] at refused
  split at refused
  · cases refused; exact .inl rfl
  · split at refused
    · cases refused
    · cases refused; exact .inr rfl

/-- The core's step is refused at FETCH alone. -/
theorem refusal_of_coreStep {s : State} {r : Refusal} (refused : coreStep s = .refused r) :
    r = .blockOutOfRange ∨ r = .messageUnreadable := by
  obtain rests | enabled := rests_or_enabled s
  · rw [coreStep_of_rests rests] at refused
    cases refused
  · rw [coreStep_of_enabled enabled] at refused
    cases named : s.nxt with
    | fetch =>
      rw [named] at enabled refused
      exact refusal_of_execFetch enabled refused
    | rnd =>
      rw [named] at enabled refused
      cases refused.symm.trans (issueRound_eq_next.2 ⟨rfl, rfl, enabled, rfl⟩)
    | none => rw [named] at refused; cases refused
    | unpack | loadw | chain | ser | hex =>
      rw [named] at enabled refused
      cases refused.symm.trans (issue_of_enabled enabled)

theorem spaceRefusal_eq_some {s : State} {r : Refusal} (refusal : spaceRefusal s = some r) :
    r = .messageTooLong := by
  rw [spaceRefusal] at refusal
  split at refusal <;> cases refusal
  rfl

theorem overflowRefusal_eq_some {p : LenOverflow} {r : Refusal} (refusal : overflowRefusal p = some r) :
    r = .lengthOverflow ∨ r = .lengthRejected := by
  cases p <;> cases refusal
  · exact .inl rfl
  · exact .inr rfl

theorem startRefusal_eq_some {s : State} {r : Refusal} (refusal : startRefusal s = some r) :
    r = .startWhileBusy ∨ r = .lengthOverflow ∨ r = .lengthRejected ∨ r = .messageTooLong := by
  cases busy : s.busy with
  | true =>
    cases (startRefusal_of_busy busy).symm.trans refusal
    exact .inl rfl
  | false =>
    obtain long | domain := Nat.lt_or_ge maxMsgBytes s.msgLen.toNat
    · rw [startRefusal_of_overflow busy long, Option.or_eq_some_iff] at refusal
      obtain policy | ⟨-, space⟩ := refusal
      · exact .inr ((overflowRefusal_eq_some policy).imp_right .inl)
      · exact .inr (.inr (.inr (spaceRefusal_eq_some space)))
    · rw [startRefusal_of_domain busy domain] at refusal
      exact .inr (.inr (.inr (spaceRefusal_eq_some refusal)))

/-- A host's move is refused for a write while busy, or as its START is. -/
theorem refusal_of_hostMove {a : HostAct} {s : State} {r : Refusal}
    (refused : hostMove a s = .refused r) :
    r = .hostWriteWhileBusy ∨ startRefusal s = some r := by
  cases a with
  | reset b => cases refused
  | writeMsgLen n | placeByte a b =>
    simp only [hostMove] at refused
    split at refused <;> cases refused
    exact .inl rfl
  | writeCtrl v =>
    obtain rfl | rfl := BitVec.eq_zero_or_eq_one v
    · cases refused
    · right
      have start : execStart s = .refused r := refused
      rw [execStart] at start
      split at start <;> cases start
      assumption
  | read reg =>
    simp only [hostMove] at refused
    split at refused <;> cases refused

/-- Settles O26: the reasons of a refused step are FETCH's, START's and the host's. -/
theorem stepNeverOutOfTurn : Obligations.StepNeverOutOfTurn := by
  intro s
  have reasons {r : Refusal} (refused : step s = .refused r) :
      r ≠ .notEnabled ∧ r ≠ .reservedWord := by
    obtain ⟨-, core⟩ | ⟨a, -, host⟩ := step_cases s
    · obtain rfl | rfl := refusal_of_coreStep (core ▸ refused) <;> decide
    · obtain rfl | refusal := refusal_of_hostMove (host ▸ refused)
      · decide
      · obtain rfl | rfl | rfl | rfl := startRefusal_eq_some refusal <;> decide
  exact ⟨fun refused => (reasons refused).1 rfl, fun refused => (reasons refused).2 rfl⟩

end Sys2Proof.Machine
end

/-! ### What instructions write and read -/

section
namespace Sys2Proof.Machine

/-- Settles O28: an instruction's next states differ from the state before in registers of the core. -/
theorem instructionsWriteNoMemory : Obligations.InstructionsWriteNoMemory := by
  intro r s t h
  have kept : t.msg = s.msg ∧ t.msgLen = s.msgLen ∧ t.par = s.par ∧ t.host = s.host := by
    cases execNext_of_exec h with
    | rnd1 | rnd2 | rnd3 | rnd4 =>
      exact ⟨s.afterRound_msg _, s.afterRound_msgLen _, s.afterRound_par _, s.afterRound_host _⟩
    | start | init | fetch | unpack | loadw | chain | ser | hex => exact ⟨rfl, rfl, rfl, rfl⟩
  obtain ⟨msg, others⟩ := kept
  exact ⟨fun a => by rw [msg], msg, others⟩

/-- Settles O29: each instruction's next states write the registers of its column. -/
theorem registersWrittenByTheirStepsOnly : Obligations.RegistersWrittenByTheirStepsOnly := by
  intro r s t h
  cases execNext_of_exec h <;> simp

/-- The four rounds are ROUND of their index (R122). -/
theorem ExecNext.of_round {k : BitVec 6} {r : Instr} {s t : State} (next : ExecNext s r t)
    (isRound : r = .rnd1 k ∨ r = .rnd2 k ∨ r = .rnd3 k ∨ r = .rnd4 k) :
    s.enabled .rnd = true ∧ s.i = k ∧ t = s.afterRound (round k s.w s.m) := by
  obtain rfl | rfl | rfl | rfl := isRound
  all_goals
    cases next
    simp_all [round]

/-- Two rounds of one index with one result go on alike. -/
theorem afterRound_writes {s s' : State} (index : s.i = s'.i) (enabled : s.enabled .rnd = true)
    (enabled' : s'.enabled .rnd = true) {q q' : Quad} (result : q = q') :
    (s.afterRound q).w = (s'.afterRound q').w ∧ (s.afterRound q).nxt = (s'.afterRound q').nxt ∧
      (s.afterRound q).i = (s'.afterRound q').i := by
  have named : s.nxt = s'.nxt :=
    ((s.enabled_iff _).1 enabled).2.trans ((s'.enabled_iff _).1 enabled').2.symm
  simp [index, named, result]

/-- Settles O30: of two next states of one instruction, each register written is one function of the
registers read. -/
theorem writesDependOnReadsOnly : Obligations.WritesDependOnReadsOnly := by
  intro r s s' t t' run run'
  have next := execNext_of_exec run
  have next' := execNext_of_exec run'
  refine ⟨?init, ?fetch, ?unpack, ?loadw, ?round, ?chain, ?ser, ?hex⟩
  case init =>
    rintro (rfl | rfl) <;> cases next <;> cases next' <;> exact ⟨rfl, rfl, rfl, rfl, rfl⟩
  case fetch =>
    rintro rfl blk msgLen msg par
    cases next with | fetch v _ _ read => cases next' with | fetch v' _ _ read' =>
    rw [← blk, ← readBlock_congr msgLen msg par] at read'
    exact Option.some.inj (read.symm.trans read')
  case unpack =>
    rintro rfl block
    cases next; cases next'
    exact congrArg unpackWords block
  case loadw =>
    rintro rfl h
    cases next; cases next'
    exact h
  case round =>
    rintro ⟨k, isRound⟩ w m
    obtain ⟨enabled, rfl, rfl⟩ := next.of_round isRound
    obtain ⟨enabled', index, rfl⟩ := next'.of_round isRound
    exact afterRound_writes index.symm enabled enabled' (by rw [w, m])
  case chain =>
    rintro rfl h w blk msgLen
    cases next; cases next'
    simp [h, w, blk, State.nb_congr msgLen]
  case ser =>
    rintro rfl h
    cases next; cases next'
    exact congrArg serBytes h
  case hex =>
    rintro rfl dg
    cases next; cases next'
    exact congrArg hexChars dg

/-! ### What a step depends on -/

theorem State.LiveEq.busy {s t : State} (live : s.LiveEq t) : s.busy = t.busy :=
  State.busy_congr live.fsm

theorem State.LiveEq.done {s t : State} (live : s.LiveEq t) : s.done = t.done :=
  State.done_congr live.fsm

theorem State.LiveEq.enabled {s t : State} (live : s.LiveEq t) (n : Nxt) : s.enabled n = t.enabled n :=
  State.enabled_congr live.fsm live.nxt n

theorem State.LiveEq.turnTaken {s t : State} (live : s.LiveEq t) : s.turnTaken.LiveEq t.turnTaken :=
  { live with host := congrArg List.tail live.host }

theorem outcomesAgree_issue {s t u v : State} {n : Nxt} (live : s.LiveEq t)
    (next : s.enabled n = true → u.LiveEq v) : OutcomesAgree (issue s n u) (issue t n v) := by
  rw [issue, issue, ← live.enabled]
  split_ifs with enabled
  · exact next enabled
  · rfl

/-- START leaves nothing live of what the registers held. -/
theorem liveEq_initialised {s t : State} (msgLen : s.msgLen = t.msgLen) (msg : s.msg = t.msg)
    (host : s.host = t.host) (par : s.par = t.par) : s.initialised.LiveEq t.initialised where
  fsm := rfl
  nxt := rfl
  msgLen := msgLen
  msg := msg
  host := host
  par := par
  blk _ := rfl
  i _ := rfl
  h _ _ := rfl
  block := nofun
  m := by simp
  w := by simp
  dg := by simp [State.done, Fsm.isDone]
  hx := nofun

theorem State.LiveEq.resetBy {s t : State} (live : s.LiveEq t) : s.resetBy.LiveEq t.resetBy where
  fsm := rfl
  nxt := rfl
  msgLen := rfl
  msg := live.msg
  host := live.host
  par := live.par
  blk _ := rfl
  i _ := rfl
  h _ _ := rfl
  block _ := rfl
  m _ := rfl
  w _ := rfl
  dg _ := rfl
  hx _ := rfl

/-- FETCH reads `blk` and the message, and fills BLK for UNPACK. -/
theorem outcomesAgree_execFetch {s t : State} (live : s.LiveEq t) (busy : s.busy = true)
    (named : s.nxt = .fetch) : OutcomesAgree (execFetch s) (execFetch t) := by
  rw [execFetch, execFetch, ← live.enabled, ← State.nb_congr live.msgLen, ← live.blk busy,
    ← readBlock_congr live.msgLen live.msg live.par]
  split_ifs
  · rfl
  · cases readBlock s s.blk.toNat with
    | none => rfl
    | some v =>
      exact { live with
        fsm := rfl, nxt := rfl
        blk := fun _ => live.blk busy
        i := nofun
        h := fun _ _ => live.h busy (by simp [named])
        block := fun _ => rfl
        m := by simp
        w := by simp
        dg := by simp [State.done, Fsm.isDone]
        hx := nofun }
  · rfl

theorem State.LiveEq.afterRound {s t : State} (live : s.LiveEq t) (named : s.nxt = .rnd) :
    (s.afterRound (round s.i s.w s.m)).LiveEq (t.afterRound (round t.i t.w t.m)) := by
  have index := live.i named
  have result : round s.i s.w s.m = round t.i t.w t.m := by
    rw [index, live.w (.inl named), live.m (.inr named)]
  rw [← result, State.afterRound, State.afterRound, ← index]
  split_ifs with last
  · exact { live with
      nxt := rfl
      i := nofun
      h := fun busy _ => live.h busy (by simp [named])
      block := nofun
      m := by simp
      w := fun _ => rfl
      dg := fun read => live.dg (.inr (read.resolve_left nofun)) }
  · exact { live with
      i := fun _ => rfl
      w := fun _ => rfl }

/-- Each micro-operation writes from what is live where it is named. UNPACK's words are kept closed, lest
a comparison of the two states unfolds them. -/
theorem outcomesAgree_microStep {s t : State} (live : s.LiveEq t) (busy : s.busy = true) :
    OutcomesAgree (microStep s s.nxt) (microStep t s.nxt) := by
  cases named : s.nxt with
  | none => exact live
  | fetch => exact outcomesAgree_execFetch live busy named
  | unpack =>
    rw [microStep, microStep, execUnpack, execUnpack, ← live.block named]
    generalize unpackWords s.block = m
    exact outcomesAgree_issue live fun _ => { live with
      nxt := rfl
      i := nofun
      h := fun _ _ => live.h busy (by simp [named])
      block := nofun
      m := fun _ => rfl
      w := by simp
      dg := fun read => live.dg (.inr (read.resolve_left nofun)) }
  | loadw =>
    exact outcomesAgree_issue live fun _ => { live with
      nxt := rfl
      i := fun _ => rfl
      h := fun _ _ => live.h busy (by simp [named])
      block := nofun
      m := fun _ => live.m (.inl named)
      w := fun _ => live.h busy (by simp [named])
      dg := fun read => live.dg (.inr (read.resolve_left nofun)) }
  | rnd =>
    rw [microStep, microStep, issueRound, issueRound, if_pos ⟨rfl, rfl⟩, if_pos ⟨rfl, rfl⟩]
    exact outcomesAgree_issue live fun _ => live.afterRound named
  | chain =>
    have h := live.h busy (by simp [named])
    have w := live.w (.inr named)
    have blk := live.blk busy
    rw [microStep, microStep, execChain, execChain, ← h, ← w, ← blk, ← State.nb_congr live.msgLen]
    exact outcomesAgree_issue live fun _ => { live with
      nxt := rfl
      blk := fun _ => rfl
      i := by split_ifs <;> simp
      h := fun _ _ => rfl
      block := by split_ifs <;> simp
      m := by split_ifs <;> simp
      w := by split_ifs <;> simp
      dg := fun read => live.dg (.inr (read.resolve_left (by split_ifs <;> simp))) }
  | ser =>
    have h := live.h busy (by simp [named])
    exact outcomesAgree_issue live fun _ => { live with
      nxt := rfl
      i := nofun
      h := fun _ _ => h
      block := nofun
      m := by simp
      w := by simp
      dg := fun _ => congrArg serBytes h }
  | hex =>
    have dg := live.dg (.inl named)
    exact outcomesAgree_issue live fun _ => { live with
      fsm := rfl
      nxt := rfl
      blk := nofun
      i := nofun
      h := nofun
      block := nofun
      m := by simp
      w := by simp
      dg := fun _ => dg
      hx := fun _ => congrArg hexChars dg }

theorem outcomesAgree_coreStep {s t : State} (live : s.LiveEq t) :
    OutcomesAgree (coreStep s) (coreStep t) := by
  obtain rests | enabled := rests_or_enabled s
  · rw [coreStep_of_rests rests, coreStep_of_rests (live.busy ▸ rests)]
    exact live
  · rw [coreStep_of_enabled enabled, coreStep_of_enabled (live.enabled _ ▸ enabled)]
    exact outcomesAgree_microStep live (State.busy_of_enabled enabled)

theorem State.LiveEq.startRefusal {s t : State} (live : s.LiveEq t) :
    startRefusal s = startRefusal t := by
  rw [Machine.startRefusal, Machine.startRefusal, spaceRefusal, spaceRefusal, live.busy, live.msgLen,
    live.par]

theorem outcomesAgree_hostMove {s t : State} (live : s.LiveEq t) (a : HostAct) :
    OutcomesAgree (hostMove a s) (hostMove a t) := by
  cases a with
  | reset b => exact live.resetBy
  | writeMsgLen n =>
    rw [hostMove, hostMove, ← live.busy]
    split_ifs
    · rfl
    · exact { live with msgLen := rfl }
  | placeByte a b =>
    rw [hostMove, hostMove, ← live.busy, ← live.msg]
    split_ifs
    · rfl
    · exact { live with msg := rfl }
  | writeCtrl v =>
    obtain rfl | rfl := BitVec.eq_zero_or_eq_one v
    · exact live
    · change OutcomesAgree (execStart s) (execStart t)
      rw [execStart, execStart, ← live.startRefusal]
      cases Machine.startRefusal s with
      | some r => rfl
      | none => exact liveEq_initialised live.msgLen live.msg live.host live.par
  | read reg =>
    have kind : (∃ v v', readReg s reg = .ok v ∧ readReg t reg = .ok v') ∨
        ∃ f, readReg s reg = .error f ∧ readReg t reg = .error f := by
      cases reg with
      | ctrl | status | msgLen => exact .inl ⟨_, _, rfl, rfl⟩
      | digest | hex =>
        simp only [readReg, ← live.done]
        split_ifs
        · exact .inl ⟨_, _, rfl, rfl⟩
        · exact .inr ⟨_, rfl, rfl⟩
    rw [hostMove, hostMove]
    obtain ⟨v, v', read, read'⟩ | ⟨f, read, read'⟩ := kind <;> rw [read, read']
    · exact live
    · rfl

/-- Settles O53: the host's list is live, and so is all that its move or the core's step reads. -/
theorem liveStateDeterminesStep : Obligations.LiveStateDeterminesStep := by
  intro s t live
  obtain ⟨silent, core⟩ | ⟨a, move, host⟩ := step_cases s
  · have silent' : t.hostSilent := by rwa [State.hostSilent, ← live.host]
    rw [core, step_of_silent silent']
    exact outcomesAgree_coreStep live.turnTaken
  · rw [host, step_of_head (live.host ▸ move)]
    exact outcomesAgree_hostMove live.turnTaken a

theorem startRefusal_of_startable {s : State} (startable : s.startable) : startRefusal s = none := by
  obtain ⟨rests, domain, space⟩ := startable
  rw [startRefusal_of_domain rests domain, spaceRefusal, if_neg (Nat.not_lt.2 space)]

theorem exec_start_of_startable {s : State} (startable : s.startable) :
    exec .start s = .next s.initialised :=
  execStart_eq_next.2 ⟨startRefusal_of_startable startable, rfl⟩

/-- Settles O54: what is live after START is the message, the host's list and the parameters. -/
theorem startErasesHistory : Obligations.StartErasesHistory := by
  intro s t startable rests msgLen msg host par
  have startable' : t.startable := by
    obtain ⟨-, domain, space⟩ := startable
    exact ⟨rests, msgLen ▸ domain, msgLen ▸ par ▸ space⟩
  exact ⟨_, _, exec_start_of_startable startable, exec_start_of_startable startable',
    liveEq_initialised msgLen msg host par⟩

/-- Settles O10: START is `State.initialised`, which is busy. -/
theorem startBeginsInvocation : Obligations.StartBeginsInvocation :=
  fun _ startable => ⟨_, exec_start_of_startable startable, rfl, rfl, rfl, rfl, rfl⟩

end Sys2Proof.Machine
end

/-! ### What a step changes of the life cycle -/

section
namespace Sys2Proof.Machine

/-- A core at rest waits. -/
theorem CoreNext.eq_of_rests {s t : State} (next : CoreNext s t) (rests : s.busy = false) : t = s := by
  have waits := (coreStep_eq_next.2 next).symm.trans (coreStep_of_rests rests)
  cases waits
  rfl

/-- The core's own steps leave the message, its length and the parameters. -/
theorem CoreNext.outside {s t : State} (next : CoreNext s t) :
    t.msg = s.msg ∧ t.msgLen = s.msgLen ∧ t.par = s.par := by
  cases next with
  | rnd => exact ⟨s.afterRound_msg _, s.afterRound_msgLen _, s.afterRound_par _⟩
  | rests | fetch | unpack | loadw | chain | ser | hex => exact ⟨rfl, rfl, rfl⟩

theorem CoreNext.fsm_cases {s t : State} (next : CoreNext s t) :
    t.fsm = s.fsm ∨ (t.fsm = .proc ∧ s.enabled .fetch = true) ∨
      (t.fsm = .final ∧ s.enabled .hex = true ∧ exec .hex s = .next t) := by
  cases next with
  | fetch v enabled => exact .inr (.inl ⟨rfl, enabled⟩)
  | hex enabled => exact .inr (.inr ⟨rfl, enabled, issue_of_enabled enabled⟩)
  | rnd => exact .inl (s.afterRound_fsm _)
  | rests | unpack | loadw | chain | ser => exact .inl rfl

theorem HostNext.fsm_cases {s t : State} {a : HostAct} (next : HostNext s a t) :
    t.fsm = s.fsm ∨ (t.fsm = .initd ∧ s.busy = false ∧ a = .writeCtrl 1) ∨
      (t.fsm = .idle ∧ ∃ b, a = .reset b) := by
  cases next with
  | reset b => exact .inr (.inr ⟨rfl, b, rfl⟩)
  | start admitted =>
    obtain ⟨rests, -⟩ := rests_of_startRefusal admitted
    exact .inr (.inl ⟨rfl, rests, rfl⟩)
  | writeMsgLen | placeByte | ctrlZero | read => exact .inl rfl

theorem State.Inv.fsm_of_named {s : State} (inv : s.Inv) {n : Nxt} (enabled : s.enabled n = true)
    (other : n ≠ .fetch) : s.fsm = .proc := by
  obtain ⟨busy, rfl⟩ := (s.enabled_iff n).1 enabled
  obtain started | proc := s.busy_iff.1 busy
  · obtain ⟨fetch, -, -⟩ := inv.initialized started
    exact absurd fetch other
  · exact proc

/-- Settles O40: what changes `fsm` is START, FETCH, HEX and reset, and the invariant says where each
can stand. -/
theorem lifeCycleTransitions : Obligations.LifeCycleTransitions := by
  intro s t inv h
  obtain ⟨silent, next⟩ | ⟨a, move, next⟩ := next_cases_of_step h
  · obtain same | ⟨proc, fetch⟩ | ⟨final, hex, -⟩ := next.fsm_cases
    · exact .inl same
    · obtain ⟨busy, named⟩ := (s.turnTaken.enabled_iff _).1 fetch
      obtain started | running := s.busy_iff.1 busy
      · obtain ⟨-, first, -⟩ := inv.initialized started
        exact .inr (.inr (.inl ⟨started, proc, silent, named, first⟩))
      · exact .inl (proc.trans running.symm)
    · have named : s.nxt = .hex := ((s.turnTaken.enabled_iff _).1 hex).2
      exact .inr (.inr (.inr (.inl ⟨inv.fsm_of_named hex (by decide), final, silent, named,
        inv.blockEnd (.inr named)⟩)))
  · obtain same | ⟨started, rests, rfl⟩ | ⟨idle, b, rfl⟩ := next.fsm_cases
    · exact .inl same
    · exact .inr (.inl ⟨s.not_busy_iff.1 rests, started, move⟩)
    · exact .inr (.inr (.inr (.inr ⟨idle, b, move⟩)))

theorem State.fsm_ne_of_done {s t : State} (before : s.done = false) (after : t.done = true) :
    t.fsm ≠ s.fsm := by
  intro same
  cases before.symm.trans ((State.done_congr same).symm.trans after)

/-- Settles O41: HEX alone enters `FINAL`. -/
theorem onlyHexEndsInvocation : Obligations.OnlyHexEndsInvocation := by
  intro s t before h after
  have moved : t.fsm ≠ s.fsm := State.fsm_ne_of_done before after
  have final : t.fsm = .final := t.done_iff.1 after
  obtain ⟨silent, next⟩ | ⟨a, move, next⟩ := next_cases_of_step h
  · obtain same | ⟨proc, -⟩ | ⟨-, hex⟩ := next.fsm_cases
    · exact absurd same moved
    · cases proc.symm.trans final
    · exact ⟨silent, hex⟩
  · obtain same | ⟨started, -⟩ | ⟨idle, -⟩ := next.fsm_cases
    · exact absurd same moved
    · cases started.symm.trans final
    · cases idle.symm.trans final

/-- A host's move at which DONE does not fall leaves the digest. -/
theorem HostNext.digest_kept {s t : State} {a : HostAct} (next : HostNext s a t)
    (done : t.done = true) : t.dg = s.dg ∧ t.hx = s.hx := by
  cases next with
  | reset | start => cases done
  | writeMsgLen | placeByte | ctrlZero | read => exact ⟨rfl, rfl⟩

theorem State.rests_of_done {s : State} (done : s.done = true) : s.busy = false :=
  s.not_busy_iff.2 (.inr (s.done_iff.1 done))

/-- Settles O45: a core that is done waits, and of the host's moves only START and reset write DG, HX
or `fsm`. -/
theorem resultStableWhileDone : Obligations.ResultStableWhileDone := by
  intro s t done h
  obtain ⟨-, next⟩ | ⟨a, move, next⟩ := next_cases_of_step h
  · obtain rfl := next.eq_of_rests (State.rests_of_done (s := s.turnTaken) done)
    exact ⟨fun _ => ⟨rfl, rfl⟩, fun undone => by cases undone.symm.trans done⟩
  · refine ⟨fun kept => next.digest_kept kept, fun undone => ?_⟩
    obtain same | ⟨-, -, rfl⟩ | ⟨-, b, rfl⟩ := next.fsm_cases
    · exact absurd same.symm (State.fsm_ne_of_done undone done)
    · exact .inl move
    · exact .inr ⟨b, move⟩

/-- Settles O56: a busy core is given no other move than reset, a write of 0 to CTRL and a read. -/
theorem messageFixedWhileBusy : Obligations.MessageFixedWhileBusy := by
  intro s t busy h
  obtain ⟨-, next⟩ | ⟨a, move, next⟩ := next_cases_of_step h
  · obtain ⟨msg, msgLen, -⟩ := next.outside
    exact ⟨msg, .inl msgLen⟩
  · have working : ¬ s.turnTaken.busy = false := ne_false_of_eq_true busy
    cases next with
    | reset b => exact ⟨rfl, .inr ⟨b, move⟩⟩
    | writeMsgLen n rests | placeByte a b rests => exact absurd rests working
    | start admitted =>
      obtain ⟨rests, -⟩ := rests_of_startRefusal admitted
      exact absurd rests working
    | ctrlZero | read => exact ⟨rfl, .inl rfl⟩

/-! ### The host's moves -/

/-- Settles O42: the reset input is a move of the host in any state. -/
theorem resetAbandonsInvocation : Obligations.ResetAbandonsInvocation :=
  fun _ _ _ move => ⟨_, step_of_move move, rfl, rfl, rfl, rfl, rfl, rfl, rfl, rfl, rfl⟩

theorem hostMove_read_of_ok {s : State} {r : HostReg} {v : HostValue} (read : readReg s r = .ok v) :
    hostMove (.read r) s = .next s := by
  rw [hostMove, read]

theorem hostMove_read_of_error {s : State} {r : HostReg} {f : Fault} (read : readReg s r = .error f) :
    hostMove (.read r) s = .fault f := by
  rw [hostMove, read]

theorem readReg_of_done {s : State} (done : s.done = true) :
    readReg s .digest = .ok (.digest s.dg) ∧ readReg s .hex = .ok (.hex s.hx) :=
  ⟨if_pos done, if_pos done⟩

/-- Settles O43: each register by its case of `readReg`. -/
theorem hostReadsRegisters : Obligations.HostReadsRegisters := by
  refine ⟨fun s => ⟨rfl, rfl, rfl, readReg_of_done⟩, fun s r rest move => ⟨fun readable => ?_,
    fun undone early => ?_⟩⟩
  · rw [step_of_move move]
    obtain done | rfl | rfl | rfl := readable
    · obtain ⟨digest, hex⟩ := readReg_of_done (s := { s with host := rest }) done
      cases r with
      | ctrl | status | msgLen => rfl
      | digest => exact hostMove_read_of_ok digest
      | hex => exact hostMove_read_of_ok hex
    all_goals rfl
  · rw [step_of_move move]
    have early' : readReg { s with host := rest } r = .error (.readBeforeDone r) := by
      obtain rfl | rfl := early <;> exact if_neg (ne_true_of_eq_false undone)
    exact hostMove_read_of_error early'

/-- Settles O44: a placed byte is read back and no other changes, by the laws of `memWrite`. -/
theorem hostWritesAtRestOnly : Obligations.HostWritesAtRestOnly := by
  refine ⟨fun s n rest move => ⟨fun rests => ?_, fun busy => ?_⟩,
    fun s a b rest move => ⟨fun rests => ?_, fun busy => ?_⟩⟩
  · exact (step_of_move move).trans (if_neg (ne_true_of_eq_false rests))
  · exact (step_of_move move).trans (if_pos busy)
  · exact ⟨memWrite s.msg a.toNat b, (step_of_move move).trans (if_neg (ne_true_of_eq_false rests)),
      memRead_memWrite_same _ _ _, fun x other => memRead_memWrite_other _ _ other⟩
  · exact (step_of_move move).trans (if_pos busy)

end Sys2Proof.Machine
end

/-! ### The control invariant -/

section
namespace Sys2Proof.Machine

theorem blockCount_le {n : Nat} (domain : n ≤ maxMsgBytes) : blockCount n ≤ 2 ^ 55 + 1 := by
  unfold blockCount maxMsgBytes at *
  omega

/-- In the domain the next block's index fits the 56 bits of `blk` (log 17). -/
theorem State.toNat_blk_succ {s : State} (domain : s.msgLen.toNat ≤ maxMsgBytes)
    (inRange : s.blk.toNat < s.nb) : (s.blk + 1).toNat = s.blk.toNat + 1 := by
  have bound : s.nb ≤ 2 ^ 55 + 1 := blockCount_le domain
  rw [BitVec.toNat_add]
  exact Nat.mod_eq_of_lt (by simp; omega)

theorem State.Inv.turnTaken {s : State} (inv : s.Inv) : s.turnTaken.Inv :=
  { inv with }

theorem State.Inv.domain {s : State} (inv : s.Inv) (busy : s.busy = true) :
    s.msgLen.toNat ≤ maxMsgBytes :=
  (inv.lengthAdmitted busy).trans inv.params

/-- At rest the invariant asks for the memory's form, the parameters, and the result where done. -/
theorem State.Inv.of_resting {t : State} (rests : t.busy = false) (idle : t.nxt = .none)
    (memory : Memory.wf t.msg) (params : t.par.wf)
    (finished : t.fsm = .final → t.dg = serBytes t.h ∧ t.hx = hexChars t.dg) : t.Inv where
  memory := memory
  params := params
  resting _ := idle
  working busy := by cases rests.symm.trans busy
  initialized started := by cases rests.symm.trans (t.busy_iff.2 (.inl started))
  lengthAdmitted busy := by cases rests.symm.trans busy
  blockBelow named := by rw [idle] at named; cases named
  blockEnd named := by rw [idle] at named; simp at named
  lastRound named := by cases idle.symm.trans named
  bytesReady named := by cases idle.symm.trans named
  finished := finished

/-- Between FETCH and HEX a step has to keep what the sequencer's fields have to do with each other. -/
theorem State.Inv.of_processing {s t : State} (inv : s.Inv) (busy : s.busy = true)
    (outside : t.msg = s.msg ∧ t.msgLen = s.msgLen ∧ t.par = s.par) (proc : t.fsm = .proc)
    (working : t.nxt ≠ .none) (blockBelow : t.nxt.onBlock = true → t.blk.toNat < s.nb)
    (blockEnd : t.nxt = .ser ∨ t.nxt = .hex → t.blk.toNat = s.nb)
    (lastRound : t.nxt = .chain → t.i = 63) (bytesReady : t.nxt = .hex → t.dg = serBytes t.h) :
    t.Inv := by
  obtain ⟨msg, msgLen, par⟩ := outside
  have nb : t.nb = s.nb := State.nb_congr msgLen
  exact {
    memory := msg ▸ inv.memory
    params := par ▸ inv.params
    resting := fun rests => by cases rests.symm.trans (t.busy_iff.2 (.inr proc))
    working := fun _ => working
    initialized := fun started => by cases proc.symm.trans started
    lengthAdmitted := fun _ => by rw [msgLen, par]; exact inv.lengthAdmitted busy
    blockBelow := nb ▸ blockBelow
    blockEnd := nb ▸ blockEnd
    lastRound := lastRound
    bytesReady := bytesReady
    finished := fun final => by cases proc.symm.trans final }

theorem CoreNext.keeps_inv {s t : State} (next : CoreNext s t) (inv : s.Inv) : t.Inv := by
  have outside := next.outside
  have busy {n : Nxt} (enabled : s.enabled n = true) : s.busy = true := State.busy_of_enabled enabled
  have named {n : Nxt} (enabled : s.enabled n = true) : s.nxt = n := ((s.enabled_iff n).1 enabled).2
  cases next with
  | rests => exact inv
  | fetch v enabled inRange =>
    exact inv.of_processing (busy enabled) outside rfl nofun (fun _ => inRange) (by simp) nofun nofun
  | unpack enabled | loadw enabled =>
    exact inv.of_processing (busy enabled) outside (inv.fsm_of_named enabled (by decide)) nofun
      (fun _ => inv.blockBelow (by rw [named enabled]; rfl)) (by simp) nofun nofun
  | rnd enabled =>
    have below : s.blk.toNat < s.nb := inv.blockBelow (by rw [named enabled]; rfl)
    refine inv.of_processing (busy enabled) outside ?_ ?_ (fun _ => by simpa using below) ?_ ?_ ?_
    · rw [State.afterRound_fsm]
      exact inv.fsm_of_named enabled (by decide)
    all_goals
      rw [State.afterRound_nxt, named enabled]
      split_ifs with last <;> simp [last]
  | chain enabled =>
    have below : s.blk.toNat < s.nb := inv.blockBelow (by rw [named enabled]; rfl)
    have succ := State.toNat_blk_succ (inv.domain (busy enabled)) below
    have proc := inv.fsm_of_named enabled (by decide)
    by_cases more : s.blk.toNat + 1 < s.nb
    · refine inv.of_processing (busy enabled) outside proc ?_ (fun _ => succ ▸ more) ?_ ?_ ?_
      all_goals simp [more]
    · refine inv.of_processing (busy enabled) outside proc ?_ ?_ (fun _ => succ.trans (by omega)) ?_ ?_
      all_goals simp [more, Nxt.onBlock]
  | ser enabled =>
    exact inv.of_processing (busy enabled) outside (inv.fsm_of_named enabled (by decide)) nofun
      nofun (fun _ => inv.blockEnd (.inl (named enabled))) nofun (fun _ => rfl)
  | hex enabled =>
    exact .of_resting rfl rfl inv.memory inv.params fun _ => ⟨inv.bytesReady (named enabled), rfl⟩

theorem HostNext.keeps_inv {s t : State} {a : HostAct} (next : HostNext s a t) (inv : s.Inv) :
    t.Inv := by
  cases next with
  | reset b => exact .of_resting rfl rfl inv.memory inv.params nofun
  | writeMsgLen n rests =>
    exact .of_resting rests (inv.resting rests) inv.memory inv.params inv.finished
  | placeByte a b rests =>
    exact .of_resting rests (inv.resting rests) (Memory.wf_memWrite inv.memory a.isLt) inv.params
      inv.finished
  | start admitted =>
    obtain ⟨-, short⟩ := rests_of_startRefusal admitted
    exact {
      memory := inv.memory
      params := inv.params
      resting := nofun
      working := fun _ => nofun
      initialized := fun _ => ⟨rfl, rfl, rfl⟩
      lengthAdmitted := fun _ => short
      blockBelow := fun _ => Nat.succ_pos _
      blockEnd := by simp
      lastRound := nofun
      bytesReady := nofun
      finished := nofun }
  | ctrlZero | read => exact inv

/-- Settles O47: by the kind of step, the core's or the host's. -/
theorem stepKeepsControlInvariant : Obligations.StepKeepsControlInvariant := by
  intro s t inv h
  obtain ⟨-, next⟩ | ⟨a, -, next⟩ := next_cases_of_step h
  · exact next.keeps_inv inv.turnTaken
  · exact next.keeps_inv inv.turnTaken

end Sys2Proof.Machine
end

/-! ### The data invariant -/

section
namespace Sys2Proof.Machine

theorem State.folded_congr {s t : State} (msgLen : s.msgLen = t.msgLen) (msg : s.msg = t.msg)
    (par : s.par = t.par) (k : Nat) : s.folded k = t.folded k := by
  induction k with
  | zero => rfl
  | succ k ih => rw [State.folded, State.folded, ih, readBlock_congr msgLen msg par]

theorem State.folded_succ {s : State} {k : Nat} {h : Quad} {v : Vector Byte 64}
    (state : s.folded k = some h) (read : readBlock s k = some v) :
    s.folded (k + 1) = some (compress h v) := by
  rw [State.folded, state, read]

/-- The round of index `i` is the next one after rounds 0 to `i - 1`. -/
theorem round_rounds (m : Vector Word 16) (i : BitVec 6) (h : Quad) :
    round i (rounds m i.toNat h) m = rounds m (i.toNat + 1) h := by
  rw [rounds, BitVec.ofNat_toNat, BitVec.setWidth_eq]

theorem toNat_index_succ {i : BitVec 6} (notLast : i ≠ 63) : (i + 1).toNat = i.toNat + 1 := by
  revert i; decide

/-- At rest the data invariant asks for nothing. -/
theorem State.DataInv.of_resting {t : State} (rests : t.busy = false) (idle : t.nxt = .none) :
    t.DataInv where
  state busy := by cases rests.symm.trans busy
  buffer busy := by cases rests.symm.trans busy
  words named := by rw [idle] at named; simp at named
  working named := by cases idle.symm.trans named
  worked named := by cases idle.symm.trans named

/-- Where the message stands still, what is folded and read of it does too. -/
theorem State.DataInv.of_outside {s t : State}
    (outside : t.msg = s.msg ∧ t.msgLen = s.msgLen ∧ t.par = s.par)
    (state : s.folded t.blk.toNat = some t.h)
    (buffer : t.nxt.onBlock = true → t.nxt ≠ .fetch → readBlock s t.blk.toNat = some t.block)
    (words : t.nxt = .loadw ∨ t.nxt = .rnd ∨ t.nxt = .chain → t.m = unpackWords t.block)
    (working : t.nxt = .rnd → t.w = rounds t.m t.i.toNat t.h)
    (worked : t.nxt = .chain → t.w = rounds t.m 64 t.h) : t.DataInv := by
  obtain ⟨msg, msgLen, par⟩ := outside
  exact {
    state := fun _ => (State.folded_congr msgLen msg par _).trans state
    buffer := fun _ onBlock filled => (readBlock_congr msgLen msg par _).trans (buffer onBlock filled)
    words := words
    working := working
    worked := worked }

theorem State.DataInv.turnTaken {s : State} (data : s.DataInv) : s.turnTaken.DataInv where
  state busy := (State.folded_congr (s := s.turnTaken) (t := s) rfl rfl rfl _).trans (data.state busy)
  buffer busy onBlock filled :=
    (readBlock_congr (s := s.turnTaken) (t := s) rfl rfl rfl _).trans (data.buffer busy onBlock filled)
  words := data.words
  working := data.working
  worked := data.worked

/-- A round moves the working registers one round on. -/
theorem State.DataInv.afterRound {s : State} (data : s.DataInv) (enabled : s.enabled .rnd = true) :
    (s.afterRound (round s.i s.w s.m)).DataInv := by
  obtain ⟨busy, named⟩ := (s.enabled_iff _).1 enabled
  have state := data.state busy
  have buffer := data.buffer busy (by rw [named]; rfl) (by simp [named])
  have words := data.words (.inr (.inl named))
  have result : round s.i s.w s.m = rounds s.m (s.i.toNat + 1) s.h := by
    rw [data.working named, round_rounds]
  rw [result]
  by_cases last : s.i = 63
  · rw [State.afterRound_of_eq last]
    refine .of_outside (s := s) ⟨rfl, rfl, rfl⟩ state (fun _ _ => buffer) (fun _ => words) nofun ?_
    intro
    rw [last]
    rfl
  · rw [State.afterRound_of_ne last]
    refine .of_outside (s := s) ⟨rfl, rfl, rfl⟩ state (fun _ _ => buffer) (fun _ => words) ?_ ?_
    · intro
      rw [toNat_index_succ last]
    · exact fun chain => by cases named.symm.trans chain

/-- CHAIN folds the block in progress. -/
theorem State.DataInv.folded_chain {s : State} (data : s.DataInv) (enabled : s.enabled .chain = true) :
    s.folded (s.blk.toNat + 1) = some (s.h.add s.w) := by
  obtain ⟨busy, named⟩ := (s.enabled_iff _).1 enabled
  rw [State.folded_succ (data.state busy) (data.buffer busy (by rw [named]; rfl) (by simp [named])),
    compress, ← data.words (.inr (.inr named)), data.worked named]

theorem CoreNext.keeps_dataInv {s t : State} (next : CoreNext s t) (inv : s.Inv) (data : s.DataInv) :
    t.DataInv := by
  have outside := next.outside
  cases next with
  | rests => exact data
  | fetch v enabled inRange read =>
    exact .of_outside outside (data.state (State.busy_of_enabled enabled)) (fun _ _ => read) (by simp)
      nofun nofun
  | unpack enabled =>
    obtain ⟨busy, named⟩ := (s.enabled_iff _).1 enabled
    exact .of_outside outside (data.state busy)
      (fun _ _ => data.buffer busy (by rw [named]; rfl) (by simp [named])) (fun _ => rfl) nofun nofun
  | loadw enabled =>
    obtain ⟨busy, named⟩ := (s.enabled_iff _).1 enabled
    exact .of_outside outside (data.state busy)
      (fun _ _ => data.buffer busy (by rw [named]; rfl) (by simp [named]))
      (fun _ => data.words (.inl named)) (fun _ => rfl) nofun
  | rnd enabled => exact data.afterRound enabled
  | chain enabled =>
    obtain ⟨busy, named⟩ := (s.enabled_iff _).1 enabled
    have succ := State.toNat_blk_succ (inv.domain busy) (inv.blockBelow (by rw [named]; rfl))
    refine .of_outside outside ((congrArg s.folded succ).trans (data.folded_chain enabled)) ?_ ?_ ?_ ?_
    all_goals
      simp only
      split_ifs <;> simp [Nxt.onBlock]
  | ser enabled =>
    exact .of_outside outside (data.state (State.busy_of_enabled enabled)) nofun (by simp) nofun nofun
  | hex => exact .of_resting rfl rfl

theorem HostNext.keeps_dataInv {s t : State} {a : HostAct} (next : HostNext s a t) (inv : s.Inv)
    (data : s.DataInv) : t.DataInv := by
  cases next with
  | reset b => exact .of_resting rfl rfl
  | writeMsgLen n rests | placeByte a b rests => exact .of_resting rests (inv.resting rests)
  | start =>
    exact .of_outside (s := s) ⟨rfl, rfl, rfl⟩ rfl (fun _ other => absurd rfl other) (by simp) nofun
      nofun
  | ctrlZero | read => exact data

/-- Settles O48: by the kind of step, the core's or the host's. -/
theorem stepKeepsDataInvariant : Obligations.StepKeepsDataInvariant := by
  intro s t inv data h
  obtain ⟨-, next⟩ | ⟨a, -, next⟩ := next_cases_of_step h
  · exact next.keeps_dataInv inv.turnTaken data.turnTaken
  · exact next.keeps_dataInv inv.turnTaken data.turnTaken

/-- Settles O46: a core after reset is at rest and has finished nothing. -/
theorem resetMeetsInvariants : Obligations.ResetMeetsInvariants :=
  ⟨.of_resting rfl rfl Memory.wf_reset (Nat.le_refl _) nofun, .of_resting rfl rfl, rfl, rfl⟩

/-- Settles O57: at rest the core waits; where FETCH is named its block is below `NB` and its bytes are
placed; every other micro-operation that is named runs. -/
theorem coreNeverFails : Obligations.CoreNeverFails := by
  intro s inv readable silent
  have next : ∃ t, CoreNext s.turnTaken t := by
    obtain rests | enabled := rests_or_enabled s.turnTaken
    · exact ⟨_, .rests (.inl rests)⟩
    · cases named : s.turnTaken.nxt with
      | none => exact ⟨_, .rests (.inr named)⟩
      | fetch =>
        rw [named] at enabled
        obtain ⟨v, read⟩ := exists_readBlock (s := s.turnTaken) (b := s.blk.toNat)
          fun k _ below => readable _ below
        exact ⟨_, .fetch v enabled (inv.turnTaken.blockBelow (by rw [named]; rfl)) read⟩
      | unpack => exact ⟨_, .unpack (named ▸ enabled)⟩
      | loadw => exact ⟨_, .loadw (named ▸ enabled)⟩
      | rnd => exact ⟨_, .rnd (named ▸ enabled)⟩
      | chain => exact ⟨_, .chain (named ▸ enabled)⟩
      | ser => exact ⟨_, .ser (named ▸ enabled)⟩
      | hex => exact ⟨_, .hex (named ▸ enabled)⟩
  obtain ⟨t, next⟩ := next
  exact ⟨t, step_of_coreNext silent next⟩

end Sys2Proof.Machine
end

/-! ### The padded message as a list -/

section
namespace Sys2Proof.Machine

/-- The number of zero bytes between the marker and the length field, `z` (30_encoding.md R61). -/
def zeroCount (n : Nat) : Nat := (119 - n % 64) % 64

/-- The last 8 bytes of the padded message of `n` bytes (30_encoding.md R63). -/
def lengthField (n : Nat) : List Byte := (List.range 8).map (le64Byte (BitVec.ofNat 64 (8 * n)))

theorem pad_eq (msg : List Byte) :
    pad msg = msg ++ 0x80 :: (List.replicate (zeroCount msg.length) 0x00 ++ lengthField msg.length) := by
  rw [pad, List.append_assoc, List.append_assoc]
  rfl

theorem length_lengthField (n : Nat) : (lengthField n).length = 8 := by
  rw [lengthField, List.length_map, List.length_range]

/-- The message, the marker, the zeros and the length field fill the last block. -/
theorem lengthField_offset (n : Nat) : n + 1 + zeroCount n = 64 * blockCount n - 8 := by
  unfold zeroCount blockCount
  omega

theorem length_pad (msg : List Byte) : (pad msg).length = 64 * blockCount msg.length := by
  have offset := lengthField_offset msg.length
  have field : 8 ≤ 64 * blockCount msg.length := by unfold blockCount; omega
  rw [pad_eq, List.length_append, List.length_cons, List.length_append, List.length_replicate,
    length_lengthField]
  omega

theorem take_pad (msg : List Byte) : (pad msg).take msg.length = msg := by
  rw [pad_eq, List.take_left]

theorem getElem?_pad_message {msg : List Byte} {j : Nat} (below : j < msg.length) :
    (pad msg)[j]? = msg[j]? := by
  rw [pad_eq, List.getElem?_append_left below]

theorem getElem?_pad_marker (msg : List Byte) : (pad msg)[msg.length]? = some 0x80 := by
  rw [pad_eq, List.getElem?_append_right (Nat.le_refl _), Nat.sub_self, List.getElem?_cons_zero]

/-- Behind the marker the padded message goes on with the zeros and the length field. -/
theorem getElem?_pad_after_marker (msg : List Byte) (k : Nat) :
    (pad msg)[msg.length + 1 + k]? =
      (List.replicate (zeroCount msg.length) 0x00 ++ lengthField msg.length)[k]? := by
  have place : msg.length + 1 + k - msg.length = k + 1 := by omega
  rw [pad_eq, List.getElem?_append_right (by omega), place, List.getElem?_cons_succ]

theorem getElem?_pad_zero {msg : List Byte} {j : Nat} (above : msg.length < j)
    (below : j < 64 * blockCount msg.length - 8) : (pad msg)[j]? = some 0x00 := by
  obtain ⟨k, rfl⟩ := Nat.exists_eq_add_of_le (Nat.succ_le_of_lt above)
  rw [← lengthField_offset, Nat.add_lt_add_iff_left] at below
  rw [getElem?_pad_after_marker, List.getElem?_append_left (by rwa [List.length_replicate]),
    List.getElem?_replicate_of_lt below]

theorem getElem?_pad_lengthField (msg : List Byte) {k : Nat} (hk : k < 8) :
    (pad msg)[64 * blockCount msg.length - 8 + k]? =
      some (le64Byte (BitVec.ofNat 64 (8 * msg.length)) k) := by
  rw [← lengthField_offset, Nat.add_assoc, getElem?_pad_after_marker,
    List.getElem?_append_right (by rw [List.length_replicate]; omega), List.length_replicate,
    Nat.add_sub_cancel_left, lengthField, List.getElem?_map, List.getElem?_range hk, Option.map_some]

/-- Settles O35: the lengths of the four parts, and R62's table by division. -/
theorem paddedLengthFillsBlocks : Obligations.PaddedLengthFillsBlocks := by
  refine ⟨length_pad, fun n => ⟨Nat.succ_pos _, ?_, fun few => ?_, fun many => ?_, blockCount_le⟩⟩
  all_goals
    unfold blockCount
    omega

/-! PADBYTE and the padded message. -/

theorem bitLength_of_domain (p : LenOverflow) {n : Nat} (domain : n ≤ maxMsgBytes) :
    bitLength p n = BitVec.ofNat 64 (8 * n) := by
  rw [← toNat_bitLength p domain, BitVec.ofNat_toNat, BitVec.setWidth_eq]

theorem State.nb_of_holdsMessage {s : State} {msg : List Byte} (holds : s.holdsMessage msg) :
    s.nb = blockCount msg.length :=
  congrArg blockCount holds.1

theorem padByte_eq_getElem?_pad {s : State} {msg : List Byte} (holds : s.holdsMessage msg)
    (domain : msg.length ≤ maxMsgBytes) {j : Nat} (inRange : j < 64 * s.nb) :
    padByte s j = (pad msg)[j]? := by
  have nb := State.nb_of_holdsMessage holds
  obtain ⟨n, bytes⟩ := holds
  obtain message | marker | above := Nat.lt_trichotomy j msg.length
  · rw [padByte_message (n ▸ message), bytes j message, getElem?_pad_message message]
  · rw [marker, getElem?_pad_marker, ← n, padByte_marker]
  · obtain zero | field := Nat.lt_or_ge j (64 * s.nb - 8)
    · rw [padByte_zero (n ▸ above) zero, getElem?_pad_zero above (nb ▸ zero)]
    · obtain ⟨k, rfl⟩ := Nat.exists_eq_add_of_le field
      rw [padByte_lengthField field, Nat.add_sub_cancel_left, n, bitLength_of_domain _ domain, nb,
        getElem?_pad_lengthField msg (by omega)]

theorem getElem_blockOf {pm : List Byte} {b k : Nat} (hk : k < 64) (inRange : 64 * b + k < pm.length) :
    pm[64 * b + k]? = some (blockOf pm b)[k] := by
  rw [List.getElem?_eq_getElem inRange, blockOf, Vector.getElem_ofFn, List.getD_eq_getElem _ _ inRange]

theorem readBlock_eq_blockOf_pad {s : State} {msg : List Byte} (holds : s.holdsMessage msg)
    (domain : msg.length ≤ maxMsgBytes) {b : Nat} (inRange : b < s.nb) :
    readBlock s b = some (blockOf (pad msg) b) := by
  refine readBlock_eq_some.2 fun k hk => ?_
  have place : 64 * b + k < 64 * s.nb := by omega
  rw [padByte_eq_getElem?_pad holds domain place, getElem_blockOf hk]
  rwa [length_pad, ← State.nb_of_holdsMessage holds]

/-- Settles O36: by the part of the padded message a byte lies in. -/
theorem padByteIsPaddedMessage : Obligations.PadByteIsPaddedMessage :=
  fun _ _ holds domain => ⟨fun _ => padByte_eq_getElem?_pad holds domain,
    fun _ => readBlock_eq_blockOf_pad holds domain⟩

/-- Eight bytes make the doubleword. -/
theorem eq_of_le64Byte {v v' : BitVec 64} (bytes : ∀ k, k < 8 → le64Byte v k = le64Byte v' k) :
    v = v' := by
  apply BitVec.eq_of_getLsbD_eq
  intro n hn
  have bit := congrArg (BitVec.getLsbD · (n % 8)) (bytes (n / 8) (by omega))
  have inByte : n % 8 < 8 := Nat.mod_lt _ (by decide)
  simpa [le64Byte, BitVec.getLsbD_extractLsb', inByte, Nat.div_add_mod] using bit

/-- The length field tells the lengths of the domain apart. -/
theorem length_eq_of_pad_eq {msg msg' : List Byte} (domain : msg.length ≤ maxMsgBytes)
    (domain' : msg'.length ≤ maxMsgBytes) (same : pad msg = pad msg') : msg.length = msg'.length := by
  have blocks : 64 * blockCount msg.length = 64 * blockCount msg'.length := by
    rw [← length_pad, same, length_pad]
  have field : BitVec.ofNat 64 (8 * msg.length) = BitVec.ofNat 64 (8 * msg'.length) := by
    refine eq_of_le64Byte fun k hk => Option.some.inj ?_
    rw [← getElem?_pad_lengthField msg hk, same, blocks, getElem?_pad_lengthField msg' hk]
  have bits := congrArg BitVec.toNat field
  rw [← bitLength_of_domain .refuse domain, ← bitLength_of_domain .refuse domain',
    toNat_bitLength _ domain, toNat_bitLength _ domain'] at bits
  omega

/-- Settles O37: the parts of the padded message, and that its length field and its beginning give the
message back. -/
theorem paddedMessageShape : Obligations.PaddedMessageShape := by
  refine ⟨fun msg => ⟨?_, ?_, take_pad msg, getElem?_pad_marker msg, fun j above below => ?_,
    fun k hk => ?_, fun b => ⟨?_, ?_, fun full k hk => getElem?_pad_message (by omega)⟩⟩,
    fun msg msg' domain domain' same => ?_⟩
  · rw [length_pad, Nat.mul_mod_right]
  · rw [length_pad]
    unfold blockCount
    omega
  · exact getElem?_pad_zero above (length_pad msg ▸ below)
  · rw [length_pad, getElem?_pad_lengthField msg hk, le64Byte_eq_ofNat, BitVec.toNat_ofNat]
  · unfold blockCount
    omega
  · exact ⟨fun full k hk => by omega, fun bytes => bytes 63 (by decide)⟩
  · rw [← take_pad msg, ← take_pad msg', same, length_eq_of_pad_eq domain domain' same]

/-! The core's reads of the message. -/

theorem msgRead_of_missing {s : State} {a : Nat} (below : a < s.msgLen.toNat)
    (missing : memRead s.msg a = none) : msgRead s a = .error .messageUnreadable := by
  rw [msgRead, if_pos below, missing]

/-- PADBYTE takes of the message space the bytes below `n` alone. -/
theorem padByte_of_agree {s : State} {mem : Memory}
    (agree : ∀ a, a < s.msgLen.toNat → memRead mem a = memRead s.msg a) (j : Nat) :
    padByte { s with msg := mem } j = padByte s j := by
  by_cases message : j < s.msgLen.toNat
  · rw [padByte_message message, ← agree j message]
    exact padByte_message (s := { s with msg := mem }) message
  · rw [padByte, padByte, if_neg message, if_neg message]
    rfl

/-- Settles O58: `msgRead` by its three outcomes, and what FETCH makes of them. -/
theorem messageReadsStayInMessage : Obligations.MessageReadsStayInMessage := by
  refine fun s => ⟨fun a => msgRead_of_le, fun a b below placed => msgRead_eq_ok.2 ⟨below, placed⟩,
    fun a => msgRead_of_missing, fun mem agree => ⟨padByte_of_agree agree, fun b => ?_⟩,
    fun a below => ⟨?_, fun b => ⟨?_, ?_⟩⟩⟩
  · refine Option.ext fun v => ?_
    simp only [readBlock_eq_some, padByte_of_agree agree]
  · unfold State.nb blockCount
    omega
  · rintro ⟨k, hk, place⟩
    omega
  · rintro rfl
    exact ⟨a % 64, Nat.mod_lt _ (by decide), Nat.div_add_mod a 64⟩

end Sys2Proof.Machine
end

/-! ### Bytes and words -/

section
namespace Sys2Proof.Machine

/-- LE32 of a word's four bytes is the word. -/
theorem le32_le32Byte (w : Word) :
    le32 (le32Byte w 0) (le32Byte w 1) (le32Byte w 2) (le32Byte w 3) = w := by
  apply BitVec.eq_of_toNat_eq
  simp only [toNat_le32, toNat_le32Byte]
  omega

/-- Settles O59: `le32_le32Byte` for each word of the State. -/
theorem serLosesNothing : Obligations.SerLosesNothing := by
  intro s enabled
  refine ⟨_, issue_of_enabled enabled, fun j hj => ?_⟩
  have byte (k : Nat) (hk : k < 4) : (serBytes s.h)[4 * j + k] = le32Byte (s.h.get ⟨j, hj⟩) k :=
    getElem_serBytes s.h hj hk
  have first : (serBytes s.h)[4 * j] = le32Byte (s.h.get ⟨j, hj⟩) 0 := byte 0 (by decide)
  simp only [first, byte 1 (by decide), byte 2 (by decide), byte 3 (by decide)]
  exact le32_le32Byte _

/-- The last 8 bytes of the last block are the bit length's. -/
theorem toNat_lastBlock_lengthField {s : State} {v : Vector Byte 64}
    (domain : s.msgLen.toNat ≤ maxMsgBytes) (last : readBlock s (s.nb - 1) = some v) {k : Nat}
    (hk : k < 8) : v[56 + k].toNat = 8 * s.msgLen.toNat / 2 ^ (8 * k) % 256 := by
  have positive : 1 ≤ s.nb := Nat.succ_pos _
  have place : 64 * (s.nb - 1) + (56 + k) = 64 * s.nb - 8 + k := by omega
  have byte := readBlock_eq_some.1 last (56 + k) (by omega)
  rw [place, padByte_lengthField (Nat.le_add_right _ _), Nat.add_sub_cancel_left, le64Byte_eq_ofNat,
    toNat_bitLength _ domain] at byte
  rw [← Option.some.inj byte, BitVec.toNat_ofNat]

/-- Settles O15: LE32 keeps each byte, and puts together the two halves of the length field. -/
theorem unpackLosesNothing : Obligations.UnpackLosesNothing := by
  intro s enabled
  refine ⟨_, issue_of_enabled enabled, fun k hk j hj => ?_, fun domain last => ⟨?_, ?_⟩⟩
  · simp only [getElem_unpackWords s.block hk]
    exact le32Byte_le32 (fun i => s.block[4 * k + i.val]) ⟨j, hj⟩
  · have byte (k : Nat) (hk : k < 8) := toNat_lastBlock_lengthField domain last hk
    simp only [getElem_unpackWords s.block (k := 14) (by decide), toNat_le32]
    rw [byte 0 (by decide), byte 1 (by decide), byte 2 (by decide), byte 3 (by decide)]
    omega
  · have byte (k : Nat) (hk : k < 8) := toNat_lastBlock_lengthField domain last hk
    have fits : 8 * s.msgLen.toNat < 2 ^ 64 := by unfold maxMsgBytes at domain; omega
    simp only [getElem_unpackWords s.block (k := 15) (by decide), toNat_le32]
    rw [byte 4 (by decide), byte 5 (by decide), byte 6 (by decide), byte 7 (by decide)]
    omega

end Sys2Proof.Machine
end

/-! ### Mixing, rotation and the tables -/

section
namespace Sys2Proof.Machine

/-- `mix_1` selects by `B`. -/
theorem getLsbD_mix1 (b c d : Word) (k : Nat) :
    (mix1 b c d).getLsbD k = if b.getLsbD k then c.getLsbD k else d.getLsbD k := by
  rw [mix1, BitVec.getLsbD_or, BitVec.getLsbD_and, BitVec.getLsbD_and, BitVec.getLsbD_not]
  by_cases inWord : k < 32
  · cases b.getLsbD k <;> simp [inWord]
  · simp [BitVec.getLsbD_of_ge _ k (Nat.le_of_not_lt inWord)]

theorem mix1_eq_xor_select (b c d : Word) : mix1 b c d = d ^^^ (b &&& (c ^^^ d)) := by
  refine BitVec.eq_of_getLsbD_eq fun k _ => ?_
  rw [getLsbD_mix1, BitVec.getLsbD_xor, BitVec.getLsbD_and, BitVec.getLsbD_xor]
  cases b.getLsbD k <;> cases c.getLsbD k <;> cases d.getLsbD k <;> rfl

/-- The two halves of `mix_1` have no bit in common. -/
theorem mix1_halves_disjoint (b c d : Word) : (b &&& c) &&& (~~~b &&& d) = 0 := by
  refine BitVec.eq_of_getLsbD_eq fun k _ => ?_
  cases bit : b.getLsbD k <;> simp [bit]

theorem mix1_eq_xor (b c d : Word) : mix1 b c d = (b &&& c) ^^^ (~~~b &&& d) := by
  refine BitVec.eq_of_getLsbD_eq fun k inWord => ?_
  rw [mix1, BitVec.getLsbD_or, BitVec.getLsbD_xor, BitVec.getLsbD_and, BitVec.getLsbD_and,
    BitVec.getLsbD_not]
  cases b.getLsbD k <;> simp

theorem mix1_eq_add (b c d : Word) : mix1 b c d = (b &&& c) + (~~~b &&& d) :=
  (BitVec.add_eq_or_of_and_eq_zero _ _ (mix1_halves_disjoint b c d)).symm

/-- Settles O32: the bits of `mix_1`, whose selector is `D` in `mix_2`. -/
theorem mixingFunctionsSelect : Obligations.MixingFunctionsSelect := by
  refine fun b c d => ⟨getLsbD_mix1 b c d, mix1_eq_xor_select b c d, mix1_eq_xor b c d,
    mix1_eq_add b c d, getLsbD_mix1 d b c, mix2_eq_mix1 b c d, mix1_eq_xor_select d b c⟩

theorem rotl32_zero (x : Word) : rotl32 x 0 = x := by
  refine BitVec.eq_of_getLsbD_eq fun k inWord => ?_
  simp [rotl32, inWord]

/-- The bits shifted out on the left come back below those shifted in. -/
theorem toNat_rotl32 (x : Word) (s : BitVec 5) :
    (rotl32 x s).toNat = x.toNat * 2 ^ s.toNat % 2 ^ 32 + x.toNat / 2 ^ (32 - s.toNat) := by
  have amount : s.toNat < 32 := s.isLt
  have width : 2 ^ 32 = 2 ^ s.toNat * 2 ^ (32 - s.toNat) := by
    rw [← Nat.pow_add, Nat.add_sub_cancel' (Nat.le_of_lt amount)]
  have low : x.toNat / 2 ^ (32 - s.toNat) < 2 ^ s.toNat := by
    rw [Nat.div_lt_iff_lt_mul (Nat.two_pow_pos _), ← width]
    exact x.isLt
  have high : x.toNat * 2 ^ s.toNat % 2 ^ 32 = 2 ^ s.toNat * (x.toNat % 2 ^ (32 - s.toNat)) := by
    rw [width, Nat.mul_comm, Nat.mul_mod_mul_left]
  rw [rotl32, BitVec.toNat_rotateLeft, Nat.mod_eq_of_lt amount, Nat.shiftLeft_eq,
    Nat.shiftRight_eq_div_pow, high, Nat.two_pow_add_eq_or_of_lt low]

theorem getLsbD_rotl32 (x : Word) (s : BitVec 5) {k : Nat} (inWord : k < 32) :
    (rotl32 x s).getLsbD ((k + s.toNat) % 32) = x.getLsbD k := by
  have amount : s.toNat < 32 := s.isLt
  rw [rotl32, BitVec.getLsbD_rotateLeft, Nat.mod_eq_of_lt amount]
  obtain stays | wraps := Nat.lt_or_ge (k + s.toNat) 32
  · have place : (k + s.toNat) % 32 = k + s.toNat := Nat.mod_eq_of_lt stays
    simp [place, stays]
  · have place : (k + s.toNat) % 32 = k + s.toNat - 32 := by omega
    have below : k + s.toNat - 32 < s.toNat := by omega
    have source : 32 - s.toNat + (k + s.toNat - 32) = k := by omega
    simp [place, below, source]

/-- Settles O33: as a number and bit by bit. -/
theorem rotateLeftIsCircular : Obligations.RotateLeftIsCircular := by
  refine fun x s => ⟨fun _ => toNat_rotl32 x s, ?_, fun k => getLsbD_rotl32 x s⟩
  rintro rfl
  exact rotl32_zero x

/-! The characters. -/

theorem hexChar_range (v : BitVec 4) :
    (0x30 ≤ (hexChar v).toNat ∧ (hexChar v).toNat ≤ 0x39) ∨
      (0x61 ≤ (hexChar v).toNat ∧ (hexChar v).toNat ≤ 0x66) := by
  rw [toNat_hexChar]
  split_ifs <;> omega

theorem hexChar_injective {v v' : BitVec 4} (same : hexChar v = hexChar v') : v = v' := by
  apply BitVec.eq_of_toNat_eq
  have codes := congrArg BitVec.toNat same
  rw [toNat_hexChar, toNat_hexChar] at codes
  split_ifs at codes <;> omega

/-- A byte is its two nibbles. -/
theorem eq_of_nibbles {b b' : Byte} (high : b.extractLsb' 4 4 = b'.extractLsb' 4 4)
    (low : b.extractLsb' 0 4 = b'.extractLsb' 0 4) : b = b' := by
  apply BitVec.eq_of_toNat_eq
  have high := congrArg BitVec.toNat high
  have low := congrArg BitVec.toNat low
  rw [toNat_highNibble, toNat_highNibble] at high
  rw [toNat_lowNibble, toNat_lowNibble] at low
  omega

/-- Settles O34: each character is a nibble's, and each byte's two nibbles are read off its two
characters. -/
theorem hexRenderingIsFaithful : Obligations.HexRenderingIsFaithful := by
  refine ⟨fun d n hn => ?_, fun d d' same => ?_⟩
  · rw [hexChars, Vector.getElem_ofFn]
    split_ifs <;> exact hexChar_range _
  · ext1 m hm
    apply eq_of_nibbles <;> apply hexChar_injective
    · rw [← getElem_hexChars_even d hm, ← getElem_hexChars_even d' hm, same]
    · rw [← getElem_hexChars_odd d hm, ← getElem_hexChars_odd d' hm, same]

/-! The tables and the word-index schedule. -/

/-- A message word is selected by one index of a phase where the phase's formula has an inverse. -/
theorem existsUnique_round {ph : BitVec 2} {g : BitVec 6 → Fin 16} {k : Fin 16} {j : Nat}
    (inRange : j < 64)
    (inverse : ∀ i : BitVec 6, i.toNat / 16 = ph.toNat ∧ (g i).val = k.val ↔ i.toNat = j) :
    ∃! i, phaseOf i = ph ∧ g i = k := by
  simp only [phaseOf_eq_iff, Fin.ext_iff, inverse]
  have place : (BitVec.ofNat 6 j).toNat = j := Nat.mod_eq_of_lt inRange
  exact ⟨BitVec.ofNat 6 j, place, fun i named => BitVec.eq_of_toNat_eq (named.trans place.symm)⟩

/-- Settles O5: the formulas depend on `i mod 16` only, and `5`, `3` and `7` have the inverses `13`, `11`
and `7` modulo 16. -/
theorem roundIndexSelectsPhaseAndWord : Obligations.RoundIndexSelectsPhaseAndWord := by
  refine ⟨fun i => ⟨toNat_phaseOf i, val_g1, rfl, ?step2, rfl, ?step3, rfl, ?step4⟩,
    fun k => ⟨?phase1, ?phase2, ?phase3, ?phase4⟩⟩
  case step2 | step3 | step4 =>
    simp only [g2, g3, g4, Fin.val_ofNat]
    omega
  case phase1 =>
    refine existsUnique_round (j := k) (by omega) fun i => ?_
    change i.toNat / 16 = 0 ∧ i.toNat % 16 = k.val ↔ _
    omega
  case phase2 =>
    refine existsUnique_round (j := 16 + 13 * (k + 15) % 16) (by omega) fun i => ?_
    change i.toNat / 16 = 1 ∧ (5 * i.toNat + 1) % 16 = k.val ↔ _
    omega
  case phase3 =>
    refine existsUnique_round (j := 32 + 11 * (k + 11) % 16) (by omega) fun i => ?_
    change i.toNat / 16 = 2 ∧ (3 * i.toNat + 5) % 16 = k.val ↔ _
    omega
  case phase4 =>
    refine existsUnique_round (j := 48 + 7 * k % 16) (by omega) fun i => ?_
    change i.toNat / 16 = 3 ∧ (7 * i.toNat) % 16 = k.val ↔ _
    omega

theorem romS_range (i : BitVec 6) : 4 ≤ (romS i).toNat ∧ (romS i).toNat ≤ 23 := by
  revert i; decide

/-- Settles O31: the values by evaluation, and S by `romS_eq_phaseShift`. -/
theorem constantTablesHold : Obligations.ConstantTablesHold := by
  refine ⟨by decide, by decide, by decide, by decide, fun i => ?_, by decide, by decide, by decide,
    by decide, rfl⟩
  obtain ⟨least, most⟩ := romS_range i
  refine ⟨least, most, fun j phase step => ?_⟩
  have phase : phaseOf i = phaseOf j := phaseOf_eq_iff.2 (phase.trans (toNat_phaseOf j).symm)
  simp only [romS_eq_phaseShift, phase, phaseShift, stepShift, step]

end Sys2Proof.Machine
end

/-! ### The end of an invocation -/

section
namespace Sys2Proof.Machine

/-- `H` after the blocks of the message a state holds is the chain of the padded message's blocks. -/
theorem State.folded_eq_chainBlocks {s : State} {msg : List Byte} (holds : s.holdsMessage msg)
    (domain : msg.length ≤ maxMsgBytes) {k : Nat} (inRange : k ≤ s.nb) :
    s.folded k = some (chainBlocks (pad msg) k) := by
  induction k with
  | zero => rfl
  | succ k ih =>
    exact State.folded_succ (ih (by omega)) (readBlock_eq_blockOf_pad holds domain inRange)

theorem step_hex {s : State} (silent : s.hostSilent) (enabled : s.enabled .hex = true) :
    step s = .next { s.turnTaken with hx := hexChars s.dg, fsm := .final, nxt := .none } :=
  step_of_coreNext silent (.hex enabled)

/-- Once every block is folded, the bytes SER makes are those of DIGEST (R80). -/
theorem digest_of_folded {s : State} {msg : List Byte} (holds : s.holdsMessage msg)
    (domain : msg.length ≤ maxMsgBytes) (folded : s.folded s.nb = some s.h)
    (ready : s.dg = serBytes s.h) : s.dg = digestBytes msg ∧ digest msg = some (hexChars s.dg) := by
  have chained := (State.folded_eq_chainBlocks holds domain (Nat.le_refl _)).symm.trans folded
  have bytes : s.dg = digestBytes msg := by
    rw [ready, ← Option.some.inj chained, State.nb_of_holdsMessage holds, digestBytes]
  exact ⟨bytes, by rw [digest, if_neg (Nat.not_lt.2 domain), bytes]⟩

/-- Settles O49: at HEX every block is folded and DG holds SER's bytes, by the two invariants. -/
theorem finishedResultIsDigest : Obligations.FinishedResultIsDigest := by
  intro s msg inv data silent named holds
  have busy : s.busy = true := by
    refine Bool.eq_true_of_not_eq_false fun rests => ?_
    cases named.symm.trans (inv.resting rests)
  have folded : s.folded s.nb = some s.h := inv.blockEnd (.inr named) ▸ data.state busy
  have domain : msg.length ≤ maxMsgBytes := holds.1 ▸ inv.domain busy
  obtain ⟨bytes, chars⟩ := digest_of_folded holds domain folded (inv.bytesReady named)
  exact ⟨_, step_hex silent ((s.enabled_iff _).2 ⟨busy, named⟩), rfl, bytes, chars⟩

end Sys2Proof.Machine
end

/-! ### Runs of a busy core -/

section
namespace Sys2Proof.Machine

/-- `k` steps lead from `s` to `t`, and the core is busy after each of them. -/
structure BusyRun (k : Nat) (s t : State) : Prop where
  run : core.run k s = .next t
  busy : ∀ j, 1 ≤ j → j ≤ k → ∃ u, core.run j s = .next u ∧ u.busy = true

theorem BusyRun.refl (s : State) : BusyRun 0 s s where
  run := rfl
  busy j least most := by omega

theorem run_one {s t : State} (h : step s = .next t) : core.run 1 s = .next t :=
  run_succ_of_step (M := core) h 0

theorem BusyRun.of_step {s t : State} (h : step s = .next t) (busy : t.busy = true) :
    BusyRun 1 s t where
  run := run_one h
  busy j least most := by
    obtain rfl : j = 1 := by omega
    exact ⟨t, run_one h, busy⟩

theorem BusyRun.trans {a b : Nat} {s t u : State} (first : BusyRun a s t) (second : BusyRun b t u) :
    BusyRun (a + b) s u where
  run := (run_add_of_run first.run).trans second.run
  busy j least most := by
    obtain late | early := Nat.lt_or_ge a j
    · obtain ⟨k, rfl⟩ := Nat.exists_eq_add_of_le (Nat.le_of_lt late)
      obtain ⟨v, run, busy⟩ := second.busy k (by omega) (by omega)
      exact ⟨v, (run_add_of_run first.run).trans run, busy⟩
    · exact first.busy j least early

/-- The host makes no move any more. -/
def State.quiet (s : State) : Prop := ∀ a ∈ s.host, a = none

theorem State.quiet.silent {s : State} (quiet : s.quiet) : s.hostSilent := by
  rw [State.hostSilent]
  cases host : s.host with
  | nil => exact .inl rfl
  | cons a rest => exact .inr (congrArg some (quiet a (by simp [host])))

theorem State.quiet.of_drop {s t : State} (quiet : s.quiet) {k : Nat} (later : t.host = s.host.drop k) :
    t.quiet :=
  fun a listed => quiet a (List.mem_of_mem_drop (later ▸ listed))

theorem BusyRun.of_coreNext {s t : State} (quiet : s.quiet) (next : CoreNext s.turnTaken t)
    (busy : t.busy = true) : BusyRun 1 s t :=
  .of_step (step_of_coreNext quiet.silent next) busy

/-! The rounds of a block. -/

/-- Where a core that began the rounds at `s` is about to run the round of index `k`. -/
def State.atRound (s : State) (k : Nat) : State :=
  { s with w := rounds s.m k s.w, i := BitVec.ofNat 6 k, host := s.host.drop k }

/-- Where it has run `n` rounds and ended them. -/
def State.roundsDone (s : State) (n : Nat) : State :=
  { s with w := rounds s.m n s.w, i := 63, nxt := .chain, host := s.host.drop n }

theorem State.atRound_zero {s : State} (first : s.i = 0) : s.atRound 0 = s := by
  rw [State.atRound, List.drop_zero, rounds, ← BitVec.ofNat_eq_ofNat, ← first]

theorem State.afterRound_atRound (s : State) {k : Nat} (notLast : k < 63) :
    (s.atRound k).turnTaken.afterRound (round (BitVec.ofNat 6 k) (rounds s.m k s.w) s.m) =
      s.atRound (k + 1) := by
  have index : (s.atRound k).turnTaken.i ≠ 63 := by
    intro last
    have number : k % 64 = 63 := congrArg BitVec.toNat last
    omega
  rw [State.afterRound_of_ne index, State.atRound, State.atRound, State.turnTaken, List.tail_drop,
    BitVec.ofNat_add, rounds]
  rfl

theorem State.afterRound_atRound_last (s : State) {k : Nat} (last : k = 63) :
    (s.atRound k).turnTaken.afterRound (round (BitVec.ofNat 6 k) (rounds s.m k s.w) s.m) =
      s.roundsDone (k + 1) := by
  have index : (s.atRound k).turnTaken.i = 63 := congrArg (BitVec.ofNat 6) last
  rw [State.afterRound_of_eq index, State.roundsDone, ← index, State.atRound, State.turnTaken,
    List.tail_drop, rounds]

theorem busyRun_atRound {s : State} (quiet : s.quiet) (enabled : s.enabled .rnd = true)
    (first : s.i = 0) {k : Nat} (inRange : k ≤ 63) : BusyRun k s (s.atRound k) := by
  induction k with
  | zero =>
    rw [State.atRound_zero first]
    exact .refl s
  | succ k ih =>
    have quiet' : (s.atRound k).quiet := quiet.of_drop rfl
    have next := CoreNext.rnd (s := (s.atRound k).turnTaken) enabled
    refine (ih (by omega)).trans (.of_coreNext quiet' ?_ (State.busy_of_enabled enabled))
    rw [← s.afterRound_atRound (by omega)]
    exact next

/-- The rounds are ROUND 0 to 63 in ascending order. -/
theorem busyRun_rounds {s : State} (quiet : s.quiet) (enabled : s.enabled .rnd = true)
    (first : s.i = 0) {n : Nat} (all : n = 64) : BusyRun n s (s.roundsDone n) := by
  obtain ⟨k, rfl⟩ : ∃ k, n = k + 1 := ⟨63, all⟩
  have last : k = 63 := Nat.succ.inj all
  have busy : s.busy = true := State.busy_of_enabled enabled
  have quiet' : (s.atRound k).quiet := quiet.of_drop rfl
  have next := CoreNext.rnd (s := (s.atRound k).turnTaken) enabled
  refine (busyRun_atRound quiet enabled first (Nat.le_of_eq last)).trans
    (.of_coreNext quiet' ?_ busy)
  rw [← s.afterRound_atRound_last last]
  exact next

/-! The 68 steps of a block. -/

/-- Where a core about to fetch the block `v` stands after UNPACK. -/
def State.unpacked (s : State) (v : Vector Byte 64) : State :=
  { s with m := unpackWords v, block := v, fsm := .proc, nxt := .loadw, host := s.host.tail.tail }

theorem State.nb_unpacked (s : State) (v : Vector Byte 64) : (s.unpacked v).nb = s.nb := by
  simp [State.nb, State.unpacked]

/-- Where LOADW leads. -/
def State.loaded (s : State) : State := { s.turnTaken with w := s.h, nxt := .rnd, i := 0 }

/-- Where a core about to run LOADW stands after `n` rounds and CHAIN. -/
def State.chained (s : State) (n : Nat) : State :=
  { s with
    h := s.h.add (rounds s.m n s.h)
    w := rounds s.m n s.h
    nxt := if s.blk.toNat + 1 < s.nb then .fetch else .ser
    blk := s.blk + 1
    i := 63
    host := (s.host.tail.drop n).tail }

/-- The number of rounds stays a variable, which no evaluation can unfold. -/
theorem busyRun_chained {s : State} (quiet : s.quiet) (enabled : s.enabled .loadw = true) {n : Nat}
    (all : n = 64) : BusyRun (1 + n + 1) s (s.chained n) := by
  have busy : s.busy = true := State.busy_of_enabled enabled
  have loadw : BusyRun 1 s s.loaded := .of_coreNext quiet (.loadw enabled) busy
  have quiet' : s.loaded.quiet := quiet.of_drop List.drop_one.symm
  have rounds := busyRun_rounds quiet' ((State.enabled_iff _ _).2 ⟨busy, rfl⟩) rfl all
  have chain := CoreNext.chain (s := (s.loaded.roundsDone n).turnTaken)
    ((State.enabled_iff _ _).2 ⟨busy, rfl⟩)
  exact (loadw.trans rounds).trans (.of_coreNext (quiet'.of_drop rfl) chain busy)

/-- From FETCH to CHAIN a core runs the rounds on the words of the block it reads. -/
theorem busyRun_block {s : State} {v : Vector Byte 64} (quiet : s.quiet)
    (enabled : s.enabled .fetch = true) (inRange : s.blk.toNat < s.nb)
    (read : readBlock s s.blk.toNat = some v) {n : Nat} (all : n = 64) :
    BusyRun (1 + 1 + (1 + n + 1)) s ((s.unpacked v).chained n) := by
  have fetch : BusyRun 1 s (s.turnTaken.fetched v) :=
    .of_coreNext quiet (.fetch v enabled inRange read) rfl
  have quiet₁ : (s.turnTaken.fetched v).quiet := quiet.of_drop List.drop_one.symm
  have unpack : BusyRun 1 (s.turnTaken.fetched v) (s.unpacked v) :=
    .of_coreNext quiet₁ (.unpack rfl) rfl
  have quiet₂ : (s.unpacked v).quiet := quiet₁.of_drop List.drop_one.symm
  exact (fetch.trans unpack).trans (busyRun_chained quiet₂ rfl all)

/-- The 68 steps of a block, and what they leave. -/
theorem exists_busyRun_block {s : State} {v : Vector Byte 64} (quiet : s.quiet)
    (enabled : s.enabled .fetch = true) (inRange : s.blk.toNat < s.nb)
    (read : readBlock s s.blk.toNat = some v) :
    ∃ t, BusyRun 68 s t ∧ t.h = compress s.h v ∧ t.blk = s.blk + 1 ∧ t.fsm = .proc ∧
      t.nxt = (if s.blk.toNat + 1 < s.nb then .fetch else .ser) ∧
      (t.msg = s.msg ∧ t.msgLen = s.msgLen ∧ t.par = s.par) ∧ t.host = s.host.drop 68 := by
  obtain ⟨n, all⟩ : ∃ n, n = 64 := ⟨64, rfl⟩
  have run := busyRun_block quiet enabled inRange read all
  have steps : 1 + 1 + (1 + n + 1) = 68 := by omega
  rw [steps] at run
  exact ⟨_, run, by simp [State.chained, State.unpacked, compress, all],
    by simp [State.chained, State.unpacked], by simp [State.chained, State.unpacked],
    by rw [State.chained, State.nb_unpacked, State.unpacked], by simp [State.chained, State.unpacked],
    by simp [State.chained, State.unpacked, all]⟩

/-- Settles O50: FETCH, UNPACK, LOADW, the rounds and CHAIN, one after the other. -/
theorem blockStepsCompress : Obligations.BlockStepsCompress := by
  intro s v enabled inRange domain read quiet
  obtain ⟨t, run, h, blk, proc, nxt, ⟨msg, msgLen, par⟩, host⟩ :=
    exists_busyRun_block quiet enabled inRange read
  exact ⟨t, run.run, h, blk ▸ s.toNat_blk_succ domain inRange, proc, nxt, msg, msgLen, par, host⟩

end Sys2Proof.Machine
end

/-! ### A whole invocation -/

section
namespace Sys2Proof.Machine

/-- What is left of an invocation once its blocks are folded: `H` is their fold, and SER or HEX is to
come. -/
structure State.BlocksFolded (s : State) : Prop where
  quiet : s.quiet
  fsm : s.fsm = .proc
  blk : s.blk.toNat = s.nb
  folded : s.folded s.nb = some s.h

/-- Where SER leads. -/
def State.serialised (s : State) : State := { s.turnTaken with dg := serBytes s.h, nxt := .hex }

/-- From the FETCH of a block to the end of the last one, by induction on the number of blocks left. -/
theorem exists_busyRun_blocks {s : State} {n : Nat} (left : s.blk.toNat + n = s.nb) (more : 0 < n)
    (quiet : s.quiet) (enabled : s.enabled .fetch = true) (domain : s.msgLen.toNat ≤ maxMsgBytes)
    (readable : ∀ b, ∃ v, readBlock s b = some v) (folded : s.folded s.blk.toNat = some s.h) :
    ∃ t, BusyRun (68 * n) s t ∧ t.BlocksFolded ∧ t.nxt = .ser ∧
      (t.msg = s.msg ∧ t.msgLen = s.msgLen ∧ t.par = s.par) := by
  induction n generalizing s with
  | zero => cases more
  | succ n ih =>
    have inRange : s.blk.toNat < s.nb := by omega
    obtain ⟨v, read⟩ := readable s.blk.toNat
    obtain ⟨t, run, h, blk, proc, nxt, outside, host⟩ :=
      exists_busyRun_block quiet enabled inRange read
    obtain ⟨msg, msgLen, par⟩ := outside
    have nb : t.nb = s.nb := State.nb_congr msgLen
    have succ : t.blk.toNat = s.blk.toNat + 1 := blk ▸ s.toNat_blk_succ domain inRange
    have quiet' : t.quiet := quiet.of_drop host
    have folded' : t.folded t.blk.toNat = some t.h := by
      rw [State.folded_congr msgLen msg par, succ, h, State.folded_succ folded read]
    by_cases last : n = 0
    · subst last
      rw [if_neg (by omega)] at nxt
      have all : t.blk.toNat = t.nb := by omega
      exact ⟨t, run, ⟨quiet', proc, all, all ▸ folded'⟩, nxt, msg, msgLen, par⟩
    · rw [if_pos (by omega)] at nxt
      have readable' (b : Nat) : ∃ v, readBlock t b = some v := by
        rw [readBlock_congr msgLen msg par]
        exact readable b
      obtain ⟨u, run', done, named, msg', msgLen', par'⟩ := ih (s := t) (by omega)
        (Nat.pos_of_ne_zero last) quiet'
        ((t.enabled_iff _).2 ⟨t.busy_iff.2 (.inr proc), nxt⟩) (msgLen ▸ domain) readable' folded'
      refine ⟨u, ?_, done, named, msg'.trans msg, msgLen'.trans msgLen, par'.trans par⟩
      rw [Nat.mul_succ, Nat.add_comm]
      exact run.trans run'

theorem step_start {s : State} (startable : s.startable)
    (move : s.host.head? = some (some (.writeCtrl 1))) : step s = .next s.turnTaken.initialised :=
  (step_of_head move).trans (exec_start_of_startable (s := s.turnTaken) startable)

/-- An admitted START and its steps up to HEX: the core is busy after each of them, and SER has made its
bytes of the fold of all blocks. -/
theorem exists_busyRun_invocation {s : State} {rest : List (Option HostAct)} (startable : s.startable)
    (readable : s.messageReadable) (move : s.host = some (.writeCtrl 1) :: rest)
    (quiet : ∀ a ∈ rest, a = none) :
    ∃ t, BusyRun (2 + 68 * s.nb) s t ∧ t.BlocksFolded ∧ t.nxt = .hex ∧ t.dg = serBytes t.h ∧
      t.msg = s.msg ∧ t.msgLen = s.msgLen := by
  have ⟨_, domain, _⟩ := startable
  have start : BusyRun 1 s s.turnTaken.initialised :=
    .of_step (step_start startable (by rw [move, List.head?_cons])) rfl
  have readable' (b : Nat) : ∃ v, readBlock s.turnTaken.initialised b = some v :=
    exists_readBlock fun k _ below => readable _ below
  have quiet₀ : s.turnTaken.initialised.quiet := by
    simpa [State.quiet, State.turnTaken, move] using quiet
  obtain ⟨t, run, ⟨quiet', proc, blk, folded⟩, named, msg, msgLen, -⟩ :=
    exists_busyRun_blocks (s := s.turnTaken.initialised) (n := s.nb) (Nat.zero_add _)
      (Nat.succ_pos _) quiet₀ rfl domain readable' rfl
  have busy : t.busy = true := t.busy_iff.2 (.inr proc)
  have ser : BusyRun 1 t t.serialised :=
    .of_coreNext quiet' (.ser ((t.enabled_iff _).2 ⟨busy, named⟩)) busy
  have folded' : t.serialised.folded t.nb = some t.h :=
    (State.folded_congr (s := t.serialised) (t := t) rfl rfl rfl _).trans folded
  have steps : 2 + 68 * s.nb = 1 + 68 * s.nb + 1 := by omega
  rw [steps]
  exact ⟨_, (start.trans run).trans ser, ⟨quiet'.of_drop List.drop_one.symm, proc, blk, folded'⟩,
    rfl, rfl, msg, msgLen⟩

theorem State.BlocksFolded.step_hex {t : State} (folded : t.BlocksFolded) (named : t.nxt = .hex) :
    step t = .next { t.turnTaken with hx := hexChars t.dg, fsm := .final, nxt := .none } :=
  Machine.step_hex folded.quiet.silent
    ((t.enabled_iff _).2 ⟨t.busy_iff.2 (.inr folded.fsm), named⟩)

theorem State.messageReadable_of_holdsMessage {s : State} {msg : List Byte}
    (holds : s.holdsMessage msg) : s.messageReadable := by
  obtain ⟨n, bytes⟩ := holds
  intro a below
  rw [n] at below
  rw [bytes a below, List.getElem?_eq_getElem below]
  rfl

/-- Settles O51: at the end of the run to HEX the fold is that of the message's blocks. -/
theorem invocationComputesDigest : Obligations.InvocationComputesDigest := by
  intro s msg rest startable holds move quiet
  obtain ⟨t, run, folded, named, ready, sameMsg, sameLen⟩ := exists_busyRun_invocation startable
    (State.messageReadable_of_holdsMessage holds) move quiet
  have nb : t.nb = s.nb := State.nb_congr sameLen
  have holds' : t.holdsMessage msg := by
    rwa [State.holdsMessage, sameMsg, sameLen]
  obtain ⟨-, domain, -⟩ := startable
  obtain ⟨bytes, chars⟩ := digest_of_folded holds' (holds.1 ▸ domain) folded.folded ready
  have steps : 3 + 68 * s.nb = 2 + 68 * s.nb + 1 := by omega
  rw [steps]
  exact ⟨_, (run_add_of_run run.run).trans (run_one (folded.step_hex named)), rfl, nb ▸ folded.blk,
    bytes, chars⟩

/-- Settles O52: the core is busy up to HEX, which ends the invocation. -/
theorem invocationTakesExactSteps : Obligations.InvocationTakesExactSteps := by
  intro s rest startable readable move quiet
  obtain ⟨t, run, folded, named, -⟩ := exists_busyRun_invocation startable readable move quiet
  refine ⟨fun k least most => run.busy k least ?_, ?_⟩
  · unfold State.nb blockCount
    omega
  · have steps : 3 + 68 * ((s.msgLen.toNat + 8) / 64 + 1) = 2 + 68 * s.nb + 1 := by
      unfold State.nb blockCount
      omega
    rw [steps]
    exact ⟨_, (run_add_of_run run.run).trans (run_one (folded.step_hex named)), rfl⟩

end Sys2Proof.Machine
end
